-- ==== Sys2Proof/Word.lean ====
section
/-! DEFINITION. The machine's word types (00_scope.md R6, R9): every value is unsigned. -/

namespace Sys2Proof

/-- A byte: a memory cell, a general register, a timer (00_scope.md R6). -/
abbrev Byte := BitVec 8

/-- A 16-bit value: an instruction word, `pc`, `I`, a stack entry, a key state (00_scope.md R6). -/
abbrev Word := BitVec 16

/-- A 4-bit field: a register number, a row count, a key index (30_encoding.md R72). -/
abbrev Nibble := BitVec 4

/-- A 12-bit address field NNN (30_encoding.md R72). -/
abbrev Addr12 := BitVec 12

end Sys2Proof
end

