-- ==== Sys2Proof/Machine/Flags.lean ====
section
/-! DEFINITION. The flag values instructions write to `x[15]` (10_state.md R21, 41_register_arithmetic.md R122):
each is computed from operand values read at the start of the handler. -/

namespace Sys2Proof.Machine

/-- A flag as the byte written to `x[15]`: exactly 0 or 1 (R122). -/
def flagByte (b : Bool) : Byte := if b then 1#8 else 0#8

/-- The carry out of bit 7 of `a + b`: 1 when the exact sum passes 255 (R116). -/
def carryFlag (a b : Byte) : Bool := decide (255 < a.toNat + b.toNat)

/-- Not-borrow of `a - b`: 0 when `a < b`, else 1 (R117, R119). -/
def notBorrowFlag (a b : Byte) : Bool := !decide (a.toNat < b.toNat)

/-- The bit a right shift by 1 shifts out: the old bit 0 (R118). -/
def shiftedOutRight (a : Byte) : Bool := a.getLsbD 0

/-- The bit a left shift by 1 shifts out: the old bit 7 (R120). -/
def shiftedOutLeft (a : Byte) : Bool := a.getLsbD 7

end Sys2Proof.Machine
end

