-- ==== Sys2Proof/Syntax.lean ====
section
/-! DEFINITION. The instructions: one constructor per row of spec/opcode_table.json (30_encoding.md R76). -/

namespace Sys2Proof

/-- The instructions, in the order of 30_encoding.md R76.
Operands are the fields of R72: `x`, `y` register numbers, `nn` an 8-bit immediate, `nnn` a 12-bit address,
`n` a row count. -/
inductive Instr where
  /-- 6XNN `LD Vx, nn` (R110). -/
  | ldImm (x : Nibble) (nn : Byte)
  /-- 7XNN `ADD Vx, nn` (R111). -/
  | addImm (x : Nibble) (nn : Byte)
  /-- 8XY0 `LD Vx, Vy` (R112). -/
  | ldReg (x y : Nibble)
  /-- 8XY1 `OR Vx, Vy` (R113). -/
  | orReg (x y : Nibble)
  /-- 8XY2 `AND Vx, Vy` (R114). -/
  | andReg (x y : Nibble)
  /-- 8XY3 `XOR Vx, Vy` (R115). -/
  | xorReg (x y : Nibble)
  /-- 8XY4 `ADD Vx, Vy` (R116). -/
  | addReg (x y : Nibble)
  /-- 8XY5 `SUB Vx, Vy` (R117). -/
  | subReg (x y : Nibble)
  /-- 8XY6 `SHR Vx` (R118); `y` is decoded and ignored. -/
  | shr (x y : Nibble)
  /-- 8XY7 `SUBN Vx, Vy` (R119). -/
  | subn (x y : Nibble)
  /-- 8XYE `SHL Vx` (R120); `y` is decoded and ignored. -/
  | shl (x y : Nibble)
  /-- 1NNN `JP nnn` (R130). -/
  | jp (nnn : Addr12)
  /-- 3XNN `SE Vx, nn` (R131). -/
  | seImm (x : Nibble) (nn : Byte)
  /-- 4XNN `SNE Vx, nn` (R132). -/
  | sneImm (x : Nibble) (nn : Byte)
  /-- 5XY0 `SE Vx, Vy` (R133). -/
  | seReg (x y : Nibble)
  /-- 9XY0 `SNE Vx, Vy` (R134). -/
  | sneReg (x y : Nibble)
  /-- BNNN `JP V0, nnn` (R135). -/
  | jpV0 (nnn : Addr12)
  /-- 2NNN `CALL nnn` (R136). -/
  | call (nnn : Addr12)
  /-- 00EE `RET` (R137). -/
  | ret
  /-- ANNN `LD I, nnn` (R150). -/
  | ldI (nnn : Addr12)
  /-- FX1E `ADD I, Vx` (R151). -/
  | addI (x : Nibble)
  /-- CXNN `RND Vx, nn` (R153). -/
  | rnd (x : Nibble) (nn : Byte)
  /-- FX29 `LD F, Vx` (R154). -/
  | ldFont (x : Nibble)
  /-- 00E0 `CLS` (R160). -/
  | cls
  /-- DXYN `DRW Vx, Vy, n` (R161). -/
  | drw (x y n : Nibble)
  /-- EX9E `SKP Vx` (R170). -/
  | skp (x : Nibble)
  /-- EXA1 `SKNP Vx` (R171). -/
  | sknp (x : Nibble)
  /-- FX0A `LD Vx, K` (R172). -/
  | ldKey (x : Nibble)
  /-- FX07 `LD Vx, DT` (R180). -/
  | ldVxDT (x : Nibble)
  /-- FX15 `LD DT, Vx` (R181). -/
  | ldDTVx (x : Nibble)
  /-- FX18 `LD ST, Vx` (R182). -/
  | ldSTVx (x : Nibble)
  /-- FX33 `LD B, Vx` (R183). -/
  | ldBcd (x : Nibble)
  /-- FX55 `LD [I], Vx` (R184). -/
  | storeRegs (x : Nibble)
  /-- FX65 `LD Vx, [I]` (R185). -/
  | loadRegs (x : Nibble)
  /-- 0NNN `SYS nnn` (R79): the row without a handler. -/
  | sys (nnn : Addr12)
  deriving DecidableEq, Repr

end Sys2Proof
end

