-- ==== Sys2Proof/WellFormed.lean ====
section
/-! DEFINITION. Which instruction terms have an encoding of their own.
The operand types already bound every field (30_encoding.md R72). -/

namespace Sys2Proof

/-- The 12-bit fields of row 35 that are words of the earlier rows 00E0 and 00EE: row 35 overlaps these two
and comes after them (30_encoding.md R78). -/
def sysFieldTaken (nnn : Addr12) : Bool :=
  nnn == 0x0E0#12 || nnn == 0x0EE#12

/-- An instruction is well formed when its encoding decodes to it: all are but `SYS` on the words of `CLS` and
`RET` (30_encoding.md R78, R79). -/
def Instr.wf (i : Instr) : Bool :=
  match i with
  | .sys nnn => !sysFieldTaken nnn
  | .ldImm _ _ | .addImm _ _ | .ldReg _ _ | .orReg _ _ | .andReg _ _ | .xorReg _ _ | .addReg _ _ | .subReg _ _
  | .shr _ _ | .subn _ _ | .shl _ _ | .jp _ | .seImm _ _ | .sneImm _ _ | .seReg _ _ | .sneReg _ _ | .jpV0 _
  | .call _ | .ret | .ldI _ | .addI _ | .rnd _ _ | .ldFont _ | .cls | .drw _ _ _ | .skp _ | .sknp _ | .ldKey _
  | .ldVxDT _ | .ldDTVx _ | .ldSTVx _ | .ldBcd _ | .storeRegs _ | .loadRegs _ => true

end Sys2Proof
end

