-- ==== Sys2Proof/Decode.lean ====
section
/-! DEFINITION. Decoding and encoding (30_encoding.md R70 to R83): the ordered opcode table of R75 and R76,
first match wins, and the encoder written from the formats of R73. -/

namespace Sys2Proof

/-- Why bytes are no instruction. -/
inductive DecodeError where
  /-- Fewer than two bytes are left (R70). -/
  | truncated
  /-- The word matches no row of the table (R79). -/
  | unknownWord (op : Word)
  deriving DecidableEq, Repr

/-! ## Fields (R72) -/

/-- `X = op[11:8]`. -/
def fieldX (op : Word) : Nibble := op.extractLsb' 8 4
/-- `Y = op[7:4]`. -/
def fieldY (op : Word) : Nibble := op.extractLsb' 4 4
/-- `N = op[3:0]`. -/
def fieldN (op : Word) : Nibble := op.extractLsb' 0 4
/-- `NN = op[7:0]`. -/
def fieldNN (op : Word) : Byte := op.extractLsb' 0 8
/-- `NNN = op[11:0]`. -/
def fieldNNN (op : Word) : Addr12 := op.extractLsb' 0 12

/-! ## The opcode table (R75, R76) -/

/-- One row of the ordered table: a word is of the row when `(op & mask) = pattern`.
The auto-increment flag of R75 stands in the instruction's meaning (`Machine.finish`). -/
structure OpcodeRow where
  pattern : Word
  mask : Word
  build : Word → Instr

/-- `(op & mask) = match` (R75). -/
def rowMatches (op : Word) (r : OpcodeRow) : Bool := op &&& r.mask == r.pattern

/-- Rows 1 to 11 of R76: register load and arithmetic. -/
def arithmeticRows : List OpcodeRow := [
  ⟨0x6000, 0xF000, fun op => .ldImm (fieldX op) (fieldNN op)⟩,
  ⟨0x7000, 0xF000, fun op => .addImm (fieldX op) (fieldNN op)⟩,
  ⟨0x8000, 0xF00F, fun op => .ldReg (fieldX op) (fieldY op)⟩,
  ⟨0x8001, 0xF00F, fun op => .orReg (fieldX op) (fieldY op)⟩,
  ⟨0x8002, 0xF00F, fun op => .andReg (fieldX op) (fieldY op)⟩,
  ⟨0x8003, 0xF00F, fun op => .xorReg (fieldX op) (fieldY op)⟩,
  ⟨0x8004, 0xF00F, fun op => .addReg (fieldX op) (fieldY op)⟩,
  ⟨0x8005, 0xF00F, fun op => .subReg (fieldX op) (fieldY op)⟩,
  ⟨0x8006, 0xF00F, fun op => .shr (fieldX op) (fieldY op)⟩,
  ⟨0x8007, 0xF00F, fun op => .subn (fieldX op) (fieldY op)⟩,
  ⟨0x800E, 0xF00F, fun op => .shl (fieldX op) (fieldY op)⟩]

/-- Rows 12 to 19 of R76: control transfer. -/
def controlRows : List OpcodeRow := [
  ⟨0x1000, 0xF000, fun op => .jp (fieldNNN op)⟩,
  ⟨0x3000, 0xF000, fun op => .seImm (fieldX op) (fieldNN op)⟩,
  ⟨0x4000, 0xF000, fun op => .sneImm (fieldX op) (fieldNN op)⟩,
  ⟨0x5000, 0xF00F, fun op => .seReg (fieldX op) (fieldY op)⟩,
  ⟨0x9000, 0xF00F, fun op => .sneReg (fieldX op) (fieldY op)⟩,
  ⟨0xB000, 0xF000, fun op => .jpV0 (fieldNNN op)⟩,
  ⟨0x2000, 0xF000, fun op => .call (fieldNNN op)⟩,
  ⟨0x00EE, 0xFFFF, fun _ => .ret⟩]

/-- Rows 20 to 25 of R76: index register, random, font, display. -/
def indexDisplayRows : List OpcodeRow := [
  ⟨0xA000, 0xF000, fun op => .ldI (fieldNNN op)⟩,
  ⟨0xF01E, 0xF0FF, fun op => .addI (fieldX op)⟩,
  ⟨0xC000, 0xF000, fun op => .rnd (fieldX op) (fieldNN op)⟩,
  ⟨0xF029, 0xF0FF, fun op => .ldFont (fieldX op)⟩,
  ⟨0x00E0, 0xFFFF, fun _ => .cls⟩,
  ⟨0xD000, 0xF000, fun op => .drw (fieldX op) (fieldY op) (fieldN op)⟩]

/-- Rows 26 to 34 of R76: input, timers, BCD, bulk transfer. -/
def inputTimerRows : List OpcodeRow := [
  ⟨0xE09E, 0xF0FF, fun op => .skp (fieldX op)⟩,
  ⟨0xE0A1, 0xF0FF, fun op => .sknp (fieldX op)⟩,
  ⟨0xF00A, 0xF0FF, fun op => .ldKey (fieldX op)⟩,
  ⟨0xF007, 0xF0FF, fun op => .ldVxDT (fieldX op)⟩,
  ⟨0xF015, 0xF0FF, fun op => .ldDTVx (fieldX op)⟩,
  ⟨0xF018, 0xF0FF, fun op => .ldSTVx (fieldX op)⟩,
  ⟨0xF033, 0xF0FF, fun op => .ldBcd (fieldX op)⟩,
  ⟨0xF055, 0xF0FF, fun op => .storeRegs (fieldX op)⟩,
  ⟨0xF065, 0xF0FF, fun op => .loadRegs (fieldX op)⟩]

/-- Rows 1 to 34 of R76: the instructions that have a handler. -/
def definedRows : List OpcodeRow :=
  arithmeticRows ++ controlRows ++ indexDisplayRows ++ inputTimerRows

/-- Row 35 of R76, 0NNN, tried last (R78). -/
def sysRow : OpcodeRow := ⟨0x0000, 0xF000, fun op => .sys (fieldNNN op)⟩

/-- The whole ordered table of R76. -/
def opcodeTable : List OpcodeRow := definedRows ++ [sysRow]

/-! ## The decoder -/

/-- Dispatch: the first row that matches, else the word is unknown (R75, R79). -/
def decodeOp (op : Word) : Except DecodeError Instr :=
  match opcodeTable.find? (rowMatches op) with
  | some r => .ok (r.build op)
  | none => .error (.unknownWord op)

/-- The word of two bytes, high byte first (20_memory.md R53, R70). -/
def joinBytes (hi lo : Byte) : Word := hi ++ lo

/-- Decodes the first instruction of a byte sequence and gives the bytes after it (R70). -/
def decodeBytes (bytes : List Byte) : Except DecodeError (Instr × List Byte) :=
  match bytes with
  | hi :: lo :: rest =>
    match decodeOp (joinBytes hi lo) with
    | .ok i => .ok (i, rest)
    | .error e => .error e
  | [_] => .error .truncated
  | [] => .error .truncated

/-- The bytes of a word as the hardware stores them, high byte at the lower address (20_memory.md R53). -/
def wordBytes (op : Word) : List Byte := [op.extractLsb' 8 8, op.extractLsb' 0 8]

/-- The word of `nbits` bits whose number is `w`, the bits above them 0. -/
def tableWord (nbits w : Nat) : Word := BitVec.ofNat 16 (w % 2 ^ nbits)

/-- The instruction the decoder reads from a table word (numbered as spec/opcode_table.json numbers bits). -/
def decodeTableWord (nbits w : Nat) : Option Instr :=
  match decodeBytes (wordBytes (tableWord nbits w)) with
  | .ok (i, _) => some i
  | .error _ => none

/-! ## The encoder, from the formats of R73 -/

/-- Format NNN: opcode nibble and 12-bit address. -/
def wordNNN (f : Nibble) (nnn : Addr12) : Word := f ++ nnn
/-- Format XNN: opcode nibble, register, 8-bit immediate. -/
def wordXNN (f x : Nibble) (nn : Byte) : Word := f ++ x ++ nn
/-- Formats XY and XYN: opcode nibble, two registers, and a last nibble. -/
def wordXYN (f x y n : Nibble) : Word := f ++ x ++ y ++ n

/-- The word of an instruction (R73, R76). -/
def encode (i : Instr) : Word :=
  match i with
  | .ldImm x nn => wordXNN 0x6 x nn
  | .addImm x nn => wordXNN 0x7 x nn
  | .ldReg x y => wordXYN 0x8 x y 0x0
  | .orReg x y => wordXYN 0x8 x y 0x1
  | .andReg x y => wordXYN 0x8 x y 0x2
  | .xorReg x y => wordXYN 0x8 x y 0x3
  | .addReg x y => wordXYN 0x8 x y 0x4
  | .subReg x y => wordXYN 0x8 x y 0x5
  | .shr x y => wordXYN 0x8 x y 0x6
  | .subn x y => wordXYN 0x8 x y 0x7
  | .shl x y => wordXYN 0x8 x y 0xE
  | .jp nnn => wordNNN 0x1 nnn
  | .seImm x nn => wordXNN 0x3 x nn
  | .sneImm x nn => wordXNN 0x4 x nn
  | .seReg x y => wordXYN 0x5 x y 0x0
  | .sneReg x y => wordXYN 0x9 x y 0x0
  | .jpV0 nnn => wordNNN 0xB nnn
  | .call nnn => wordNNN 0x2 nnn
  | .ret => 0x00EE
  | .ldI nnn => wordNNN 0xA nnn
  | .addI x => wordXNN 0xF x 0x1E
  | .rnd x nn => wordXNN 0xC x nn
  | .ldFont x => wordXNN 0xF x 0x29
  | .cls => 0x00E0
  | .drw x y n => wordXYN 0xD x y n
  | .skp x => wordXNN 0xE x 0x9E
  | .sknp x => wordXNN 0xE x 0xA1
  | .ldKey x => wordXNN 0xF x 0x0A
  | .ldVxDT x => wordXNN 0xF x 0x07
  | .ldDTVx x => wordXNN 0xF x 0x15
  | .ldSTVx x => wordXNN 0xF x 0x18
  | .ldBcd x => wordXNN 0xF x 0x33
  | .storeRegs x => wordXNN 0xF x 0x55
  | .loadRegs x => wordXNN 0xF x 0x65
  | .sys nnn => wordNNN 0x0 nnn

end Sys2Proof
end

