-- ==== Sys2Proof/Config.lean ====
section
/-! DEFINITION. What the surroundings fix for a run (00_scope.md R7), and the values the spec leaves free. -/

namespace Sys2Proof

/-- The parameters of 00_scope.md R7 that a rule reads, constant during a run and held in `State.params`,
so that a statement about every state holds for every value of them.
`TIMER_HZ` and `INSTR_HZ` are left out: no rule depends on them (50_external_interfaces.md R205). -/
structure Params where
  /-- `ENTRY`: the reset value of `pc` and the base address of the user program. -/
  entry : Word
  /-- `FONT_BASE`: the address of glyph 0. -/
  fontBase : Word
  deriving DecidableEq, Repr

/-- The defaults of 00_scope.md R7: `ENTRY = 0x200`, `FONT_BASE = 0x50`. PRESUMED (log 2). -/
def Params.default : Params where
  entry := 0x200#16
  fontBase := 0x50#16

namespace Config

/-- The byte of the n-th draw of CXNN: a free value, chosen anew at each draw (43_memory_index.md R153,
92_eei_decisions.md D16, log 5). -/
opaque freeByte : Nat → Byte

/-- The key state presented to the n-th Cycle that the driver's listed calls do not name: a free value
(50_external_interfaces.md R203, 92_eei_decisions.md D28, log 4). -/
opaque freeKeys : Nat → Word

/-- How many ticks fall before the n-th Cycle that the driver's listed calls do not name: a free value
(50_external_interfaces.md R200, 92_eei_decisions.md D19, log 4). -/
opaque freeTicks : Nat → Nat

/-- `KEY_SELECT` where the spec does not fix it: a free value for each pair of key states that is not a
single press (45_input.md R173, 92_eei_decisions.md D13, log 6). -/
opaque freeKeySelect : Word → Word → Nibble

/-- The default font image, 16 glyphs of 5 bytes (70_reset_and_hazards.md R253). PRESUMED (log 19): no rule
of the engine depends on it; the loader places it. -/
def fontImage : List Byte :=
  [0xF0, 0x90, 0x90, 0x90, 0xF0, 0x20, 0x60, 0x20, 0x20, 0x70] ++
  [0xF0, 0x10, 0xF0, 0x80, 0xF0, 0xF0, 0x10, 0xF0, 0x10, 0xF0] ++
  [0x90, 0x90, 0xF0, 0x10, 0x10, 0xF0, 0x80, 0xF0, 0x10, 0xF0] ++
  [0xF0, 0x80, 0xF0, 0x90, 0xF0, 0xF0, 0x10, 0x20, 0x40, 0x40] ++
  [0xF0, 0x90, 0xF0, 0x90, 0xF0, 0xF0, 0x90, 0xF0, 0x10, 0xF0] ++
  [0xF0, 0x90, 0xF0, 0x90, 0x90, 0xE0, 0x90, 0xE0, 0x90, 0xE0] ++
  [0xF0, 0x80, 0x80, 0x80, 0xF0, 0xE0, 0x90, 0x90, 0x90, 0xE0] ++
  [0xF0, 0x80, 0xF0, 0x80, 0xF0, 0xF0, 0x80, 0xF0, 0x80, 0x80]

end Config
end Sys2Proof
end

