-- ==== Sys2Proof/Machine/State.lean ====
section
/-! DEFINITION. The machine's state (10_state.md), the error kinds, the refusals, the driver's calls, and reset. -/

namespace Sys2Proof.Machine

/-- The five error kinds of 60_exceptions.md R220, R222, with the information column of R222.
An error's entry records it in `State.halted` (R224); a Cycle on a halted machine has no step and answers it as
its fault (R96). Stopping there is safe: the spec gives the engine no step (log 1). -/
inductive Fault where
  /-- A byte access at 4096 or above: raised by fetch, DXYN, FX33, FX55, FX65 and `Load` (R225, 20_memory.md R63).
  Safe: the spec names this error. -/
  | outOfRangeAccess (addr : Nat)
  /-- The fetched word has no handler: raised by dispatch and by the row SYS (R226). Safe: the spec names this error. -/
  | unknownInstruction (op : Word)
  /-- 2NNN with 16 entries on the stack (R227). Safe: the spec names this error. -/
  | stackOverflow
  /-- 00EE with the stack empty (R228). Safe: the spec names this error. -/
  | stackUnderflow
  /-- `get_pixel` out of bounds: raised by the framebuffer's interface only (R229). Safe: the spec names this error. -/
  | invalidPixelAccess (x y : Nat)
  deriving DecidableEq, Repr

/-- Why a step has no meaning. -/
inductive Refusal where
  /-- The instruction has no meaning in this model yet: raised by no arm of `exec`. Safe. -/
  | notModelled (mnemonic : String)
  /-- EX9E, EXA1 and FX29 with `x[X] > 15`: `refuse OutOfDomain` of 60_exceptions.md R233. Safe (log 7). -/
  | outOfDomain
  /-- The driver's listed `Load` comes after the first Cycle, for which the spec has no move
  (50_external_interfaces.md R208, 92_eei_decisions.md D30). Safe (log 8). -/
  | loadAfterStart
  deriving DecidableEq, Repr

/-- A call of the driver or the loader on the core's input ports (50_external_interfaces.md R201). -/
inductive HostCall where
  /-- Port `step` with the key state on port `keys`, bit k for hex key k (R202, R203). -/
  | cycle (keys : Word)
  /-- Port `tick` (R204). -/
  | tick
  /-- Port `load` (R208). -/
  | load (base : Word) (bytes : List Byte)
  /-- Port `reset` (R210). -/
  | reset
  deriving DecidableEq, Repr

/-- The memory array, 4096 bytes (10_state.md R38): the cells that differ from `Memory.unlistedByte`,
addresses strictly rising. -/
structure Memory where
  cells : List Host.Cell
  deriving DecidableEq, Repr

/-- What an unlisted address reads as: memory is "created zero-filled at engine start" (10_state.md R38, R41). -/
def Memory.unlistedByte : Byte := 0#8

/-- The framebuffer: 32 rows of 64 pixels, `true` = on (10_state.md R34). -/
abbrev Screen := Vector (Vector Bool 64) 32

/-- Every pixel off. -/
def Screen.blank : Screen := Vector.replicate 32 (Vector.replicate 64 false)

/-- The whole state: the twelve pieces of 10_state.md, then the model's own parameters, inputs and counters
(INVENTORY.md, State). -/
structure State where
  /-- `mem` (R38). -/
  mem : Memory
  /-- `x[0..15]`; `x[15]` is also the flag register (R20, R21). -/
  x : Vector Byte 16
  /-- The index register (R24). -/
  I : Word
  /-- The program counter (R25, R26). -/
  pc : Word
  /-- The call stack's cells (R28). -/
  stack : Vector Word 16
  /-- The number of stack entries in use, 0 to 16 (R28). -/
  sp : Fin 17
  /-- The delay timer (R32). -/
  DT : Byte
  /-- The sound timer (R32). -/
  ST : Byte
  /-- The framebuffer (R34). -/
  FB : Screen
  /-- The input-wait latch's boolean (R36). -/
  waiting : Bool
  /-- The input-wait latch's key snapshot (R36). -/
  waitKeys : Word
  /-- `None` or the fatal error that stopped the engine (R37). -/
  halted : Option Fault
  /-- The model's own: the parameters of the run (00_scope.md R7, log 2). -/
  params : Params
  /-- The model's own: the driver's coming calls, oldest first (50_external_interfaces.md R200, log 3). -/
  calls : List HostCall
  /-- The model's own: how many Cycles were made with no call listed (log 4). -/
  openCalls : Nat
  /-- The model's own: how many bytes CXNN has drawn (43_memory_index.md R153, log 5). -/
  draws : Nat
  /-- The model's own: whether a Cycle has been made since reset (log 8). -/
  started : Bool
  deriving DecidableEq, Repr

/-- The machine right after reset (10_state.md R41, 70_reset_and_hazards.md R250).
The dead cells `stack` and `waitKeys` and the model's own fields hold the values of logs 2 to 5, 8 and 10. -/
def State.reset : State where
  mem := ⟨[]⟩
  x := Vector.replicate 16 0#8
  I := 0#16
  pc := Params.default.entry
  stack := Vector.replicate 16 0#16
  sp := 0
  DT := 0#8
  ST := 0#8
  FB := Screen.blank
  waiting := false
  waitKeys := 0#16
  halted := none
  params := Params.default
  calls := []
  openCalls := 0
  draws := 0
  started := false

end Sys2Proof.Machine
end

