-- ==== Sys2Proof/Machine/Ops.lean ====
section
/-! DEFINITION. The named operations over memory, registers, stack, framebuffer and latch, error entry
(60_exceptions.md R224), and the auto-increment (40_execution_cycle.md R94). -/

namespace Sys2Proof.Machine

/-! ## One cell of memory (10_state.md R38) -/

/-- The byte that a list of cells holds at an address. -/
def cellAt (a : Nat) : List Host.Cell → Byte
  | [] => Memory.unlistedByte
  | (b, v) :: rest => if a = b then v else cellAt a rest

/-- Puts a byte at an address, keeping the canonical form. -/
def putCell (a : Nat) (v : Byte) : List Host.Cell → List Host.Cell
  | [] => if v = Memory.unlistedByte then [] else [(a, v)]
  | (b, w) :: rest =>
    if a < b then (if v = Memory.unlistedByte then (b, w) :: rest else (a, v) :: (b, w) :: rest)
    else if a = b then (if v = Memory.unlistedByte then rest else (a, v) :: rest)
    else (b, w) :: putCell a v rest

/-- The cells lie at addresses from `lo` up to 4095, strictly rising, none holding the unlisted byte. -/
def cellsFrom (lo : Nat) : List Host.Cell → Bool
  | [] => true
  | (a, v) :: rest => decide (lo ≤ a) && decide (a < 4096) && !(v == Memory.unlistedByte) && cellsFrom (a + 1) rest

/-- The canonical form of memory. -/
def Memory.wf (m : Memory) : Bool := cellsFrom 0 m.cells

/-- `mem[a]` (20_memory.md R51, for an address inside the array). -/
def Memory.byteAt (m : Memory) (a : Nat) : Byte := cellAt a m.cells

/-- `mem[a] <- v` (20_memory.md R52, for an address inside the array). -/
def Memory.setByte (m : Memory) (a : Nat) (v : Byte) : Memory := ⟨putCell a v m.cells⟩

/-- Copies bytes to ascending addresses from `base`. -/
def Memory.setBytes (m : Memory) (base : Nat) : List Byte → Memory
  | [] => m
  | v :: rest => Memory.setBytes (m.setByte base v) (base + 1) rest

/-! ## Updates of one piece of state -/

def State.setMem (s : State) (m : Memory) : State := { s with mem := m }
def State.setI (s : State) (v : Word) : State := { s with I := v }
def State.setPc (s : State) (v : Word) : State := { s with pc := v }
def State.setDT (s : State) (v : Byte) : State := { s with DT := v }
def State.setST (s : State) (v : Byte) : State := { s with ST := v }
def State.setFB (s : State) (fb : Screen) : State := { s with FB := fb }
def State.setLatch (s : State) (w : Bool) (k : Word) : State := { s with waiting := w, waitKeys := k }
def State.setDraws (s : State) (n : Nat) : State := { s with draws := n }

/-! ## General registers (10_state.md R20) -/

/-- `x[r]`. -/
def State.reg (s : State) (r : Nibble) : Byte := s.x[r.toNat]'r.isLt

/-- `x[r] <- v`. -/
def State.setReg (s : State) (r : Nibble) (v : Byte) : State := { s with x := s.x.set r.toNat v r.isLt }

/-- The flag register is register 15 (10_state.md R21). -/
def flagReg : Nibble := 15#4

/-! ## What a handler does -/

/-- What a handler leaves: it is done, or it raised an error with the partial effects before it
(60_exceptions.md R231). -/
inductive Handled where
  | done (s : State)
  | raise (e : Fault) (s : State)
  deriving DecidableEq, Repr

/-- Goes on after a handler's part that was done. -/
def Handled.andThen (h : Handled) (f : State → State) : Handled :=
  match h with
  | .done s => .done (f s)
  | .raise e s => .raise e s

/-- TAKING AN ERROR (60_exceptions.md R224): `halted <- E(info)`; nothing else changes, so `pc` still holds the
faulting instruction's address and the partial effects stand.
There is no handler address, no saved state and no return but Reset (R232). -/
def takeError (e : Fault) (s : State) : State := { s with halted := some e }

/-- The auto-increment: `pc <- pc +16 2` unless the engine waits for a key (40_execution_cycle.md R94). -/
def autoIncrement (s : State) : State := if s.waiting then s else s.setPc (s.pc + 2#16)

/-- The end of a step after its handler: the auto-increment when the row's flag `ai` is set
(30_encoding.md R75, 40_execution_cycle.md R94), or the entry of the error raised (R95). -/
def finish (ai : Bool) (h : Handled) : Host.Outcome State Fault Refusal :=
  match h with
  | .done s => .next (if ai then autoIncrement s else s)
  | .raise e s => .next (takeError e s)

/-! ## Memory accesses (20_memory.md R51 to R54) -/

/-- `MemRead(addr, 1)` (20_memory.md R51). -/
def memRead (s : State) (addr : Word) : Except Fault Byte :=
  if 4096 ≤ addr.toNat then .error (.outOfRangeAccess addr.toNat) else .ok (s.mem.byteAt addr.toNat)

/-- `MemWrite(addr, 1, v)` (20_memory.md R52). -/
def memWrite (s : State) (addr : Word) (v : Byte) : Handled :=
  if 4096 ≤ addr.toNat then .raise (.outOfRangeAccess addr.toNat) s
  else .done (s.setMem (s.mem.setByte addr.toNat v))

/-- Fetch: high byte at `pc`, then low byte at `pc +16 1` (40_execution_cycle.md R91). -/
def fetch (s : State) : Except Fault Word :=
  match memRead s s.pc with
  | .error e => .error e
  | .ok hi =>
    match memRead s (s.pc + 1#16) with
    | .error e => .error e
    | .ok lo => .ok (joinBytes hi lo)

/-- Writes bytes at ascending addresses from `addr`, each access checked on its own; an error leaves the
earlier writes done (20_memory.md R54). -/
def storeBytes (addr : Word) : List Byte → State → Handled
  | [], s => .done s
  | v :: rest, s =>
    match memWrite s addr v with
    | .done t => storeBytes (addr + 1#16) rest t
    | .raise e t => .raise e t

/-- Reads `n` bytes at ascending addresses from `addr` into registers `r`, `r + 1`, ...; an error leaves the
earlier registers loaded (20_memory.md R54, 46_timers_bcd_bulk.md R185). -/
def loadBytes (addr : Word) (r : Nibble) : Nat → State → Handled
  | 0, s => .done s
  | n + 1, s =>
    match memRead s addr with
    | .ok v => loadBytes (addr + 1#16) (r + 1#4) n (s.setReg r v)
    | .error e => .raise e s

/-! ## The call stack (10_state.md R28 to R30) -/

/-- `Push(v)` (10_state.md R29). -/
def push (v : Word) (s : State) : Handled :=
  if h : s.sp.val < 16 then
    .done { s with stack := s.stack.set s.sp.val v h, sp := ⟨s.sp.val + 1, by omega⟩ }
  else .raise .stackOverflow s

/-- The newest stack entry, `stack[sp-1]`, when there is one (10_state.md R28). -/
def State.top (s : State) : Option Word := if s.sp.val = 0 then none else s.stack[s.sp.val - 1]?

/-- `Pop()` into `pc`; the cell is not cleared (10_state.md R30). -/
def popToPc (s : State) : Handled :=
  match s.top with
  | none => .raise .stackUnderflow s
  | some v => .done { s with sp := ⟨s.sp.val - 1, by omega⟩, pc := v }

/-! ## The framebuffer (10_state.md R34, R35) -/

/-- Whether the pixel at column `px`, row `py` is on; off outside the grid. -/
def pixelOn (fb : Screen) (px py : Nat) : Bool :=
  if h : px < 64 ∧ py < 32 then (fb[py]'h.2)[px]'h.1 else false

/-- `set_pixel(x, y, on)`: "out-of-bounds is a silent no-op" (10_state.md R35). -/
def setPixel (fb : Screen) (px py : Nat) (on : Bool) : Screen :=
  if h : px < 64 ∧ py < 32 then fb.set py ((fb[py]'h.2).set px on h.1) h.2 else fb

/-- `get_pixel(x, y)`: "out-of-bounds is an error" (10_state.md R35, 60_exceptions.md R229). -/
def getPixel (fb : Screen) (px py : Nat) : Except Fault Bool :=
  if px < 64 ∧ py < 32 then .ok (pixelOn fb px py) else .error (.invalidPixelAccess px py)

/-! ## The key state of this step (50_external_interfaces.md R203) -/

/-- `keys`: what the driver's current Cycle call presents; a free value when no call is listed (log 4). -/
def State.keys (s : State) : Word :=
  match s.calls with
  | .cycle k :: _ => k
  | .tick :: _ | .load _ _ :: _ | .reset :: _ | [] => Config.freeKeys s.openCalls

end Sys2Proof.Machine
end

