-- ==== Sys2Proof/Machine/Operands.lean ====
section
/-! DEFINITION. Operand forms (30_encoding.md R74): how an instruction's fields become values. -/

namespace Sys2Proof.Machine

/-- The 12-bit address operand, `zext_16(NNN)` (R74). -/
def addrOperand (nnn : Addr12) : Word := nnn.zeroExtend 16

/-- A register's value as a 16-bit number, `zext_16(x[X])` (43_memory_index.md R151). -/
def wideReg (s : State) (r : Nibble) : Word := (s.reg r).zeroExtend 16

/-- The register count of FX55 and FX65: registers 0 to X, X + 1 of them (R74). -/
def regCount (x : Nibble) : Nat := x.toNat + 1

/-- The values of registers 0 to X, ascending (46_timers_bcd_bulk.md R184). -/
def regsUpTo (s : State) (x : Nibble) : List Byte :=
  (List.range (regCount x)).map fun i => s.reg (BitVec.ofNat 4 i)

/-- The decimal digits of a byte: hundreds, tens, units (46_timers_bcd_bulk.md R183). -/
def bcdDigits (v : Byte) : List Byte :=
  [BitVec.ofNat 8 (v.toNat / 100), BitVec.ofNat 8 (v.toNat / 10 % 10), BitVec.ofNat 8 (v.toNat % 10)]

/-- Whether a register's value is a hex digit or key index, 0 to 15 (45_input.md R174, 43_memory_index.md R154). -/
def inHexDomain (v : Byte) : Bool := decide (v.toNat ≤ 15)

/-- `keys[k] = 1`: hex key k is held (50_external_interfaces.md R203). -/
def keyHeld (keys : Word) (k : Nat) : Bool := keys.getLsbD k

/-- The address of the glyph of digit d, `FONT_BASE +16 5 * d` (43_memory_index.md R154). -/
def glyphAddr (fontBase : Word) (d : Byte) : Word := fontBase + 5#16 * d.zeroExtend 16

/-! ## KEY_SELECT (45_input.md R173) -/

/-- Exactly key k differs, and it went from not held to held. -/
def isSinglePress (prev cur : Word) (k : Nat) : Bool :=
  prev ^^^ cur == 1#16 <<< k && !keyHeld prev k

/-- The key of a single press, when the change of key state is one. -/
def singlePress (prev cur : Word) : Option Nibble :=
  ((List.range 16).find? (isSinglePress prev cur)).map (BitVec.ofNat 4)

/-- `KEY_SELECT(prev, cur)`: k for a single press of key k, elsewhere a free value (R173, log 6). -/
def keySelect (prev cur : Word) : Nibble :=
  match singlePress prev cur with
  | some k => k
  | none => Config.freeKeySelect prev cur

/-- The lowest key of a set of keys; 0 when it is empty. -/
def lowestKey (keys : Word) : Nibble :=
  match (List.range 16).find? (keyHeld keys) with
  | some k => BitVec.ofNat 4 k
  | none => 0#4

/-- The spec's default `KEY_SELECT` for a deterministic simulator: the lowest key that went down, else the
lowest released key (R173). The machine does not use it: a claim holds for every admissible choice. -/
def keySelectDefault (prev cur : Word) : Nibble :=
  if cur &&& ~~~prev ≠ 0#16 then lowestKey (cur &&& ~~~prev) else lowestKey (prev ^^^ cur)

/-- The constraint of R173 on a `KEY_SELECT`: a single press of k selects k. -/
def KeySelectAdmissible (f : Word → Word → Nibble) : Prop :=
  ∀ prev cur k, k < 16 → isSinglePress prev cur k = true → f prev cur = BitVec.ofNat 4 k

end Sys2Proof.Machine
end

