-- ==== Sys2Proof/Machine/Arithmetic.lean ====
section
/-! DEFINITION. Register load and arithmetic (41_register_arithmetic.md R110 to R122). -/

namespace Sys2Proof.Machine

/-- Writes a result, then a flag: the order of 10_state.md R22, so that `x[15]` ends as the flag when X = 15. -/
def setResultThenFlag (s : State) (x : Nibble) (result : Byte) (flag : Bool) : State :=
  (s.setReg x result).setReg flagReg (flagByte flag)

/-- 6XNN `LD Vx, nn` (R110). -/
def execLdImm (x : Nibble) (nn : Byte) (s : State) : Host.Outcome State Fault Refusal :=
  finish true (.done (s.setReg x nn))

/-- 7XNN `ADD Vx, nn` (R111): no flag. -/
def execAddImm (x : Nibble) (nn : Byte) (s : State) : Host.Outcome State Fault Refusal :=
  finish true (.done (s.setReg x (s.reg x + nn)))

/-- 8XY0 `LD Vx, Vy` (R112). -/
def execLdReg (x y : Nibble) (s : State) : Host.Outcome State Fault Refusal :=
  finish true (.done (s.setReg x (s.reg y)))

/-- 8XY1 `OR Vx, Vy` (R113): clears the flag. -/
def execOr (x y : Nibble) (s : State) : Host.Outcome State Fault Refusal :=
  finish true (.done (setResultThenFlag s x (s.reg x ||| s.reg y) false))

/-- 8XY2 `AND Vx, Vy` (R114): clears the flag. -/
def execAnd (x y : Nibble) (s : State) : Host.Outcome State Fault Refusal :=
  finish true (.done (setResultThenFlag s x (s.reg x &&& s.reg y) false))

/-- 8XY3 `XOR Vx, Vy` (R115): clears the flag. -/
def execXor (x y : Nibble) (s : State) : Host.Outcome State Fault Refusal :=
  finish true (.done (setResultThenFlag s x (s.reg x ^^^ s.reg y) false))

/-- 8XY4 `ADD Vx, Vy` (R116): flag = carry. -/
def execAddReg (x y : Nibble) (s : State) : Host.Outcome State Fault Refusal :=
  finish true (.done (setResultThenFlag s x (s.reg x + s.reg y) (carryFlag (s.reg x) (s.reg y))))

/-- 8XY5 `SUB Vx, Vy` (R117): flag = not borrow. -/
def execSubReg (x y : Nibble) (s : State) : Host.Outcome State Fault Refusal :=
  finish true (.done (setResultThenFlag s x (s.reg x - s.reg y) (notBorrowFlag (s.reg x) (s.reg y))))

/-- 8XY6 `SHR Vx` (R118): in place on `x[X]`, Y ignored, flag = old bit 0. -/
def execShr (x _y : Nibble) (s : State) : Host.Outcome State Fault Refusal :=
  finish true (.done (setResultThenFlag s x (s.reg x >>> 1) (shiftedOutRight (s.reg x))))

/-- 8XY7 `SUBN Vx, Vy` (R119): flag = not borrow of `x[Y] - x[X]`. -/
def execSubn (x y : Nibble) (s : State) : Host.Outcome State Fault Refusal :=
  finish true (.done (setResultThenFlag s x (s.reg y - s.reg x) (notBorrowFlag (s.reg y) (s.reg x))))

/-- 8XYE `SHL Vx` (R120): in place on `x[X]`, Y ignored, flag = old bit 7. -/
def execShl (x _y : Nibble) (s : State) : Host.Outcome State Fault Refusal :=
  finish true (.done (setResultThenFlag s x (s.reg x <<< 1) (shiftedOutLeft (s.reg x))))

end Sys2Proof.Machine
end

