-- ==== Sys2Proof/Machine/Control.lean ====
section
/-! DEFINITION. Control transfer (42_control_transfer.md R130 to R140) and the row without a handler
(30_encoding.md R79). Targets are never checked or aligned (R140). -/

namespace Sys2Proof.Machine

/-- A skip handler: `pc <- pc +16 2` when the condition holds; the auto-increment follows (R131). -/
def skipIf (c : Bool) (s : State) : State := if c then s.setPc (s.pc + 2#16) else s

/-- 1NNN `JP nnn` (R130); `ai` = 0. -/
def execJp (nnn : Addr12) (s : State) : Host.Outcome State Fault Refusal :=
  finish false (.done (s.setPc (addrOperand nnn)))

/-- 3XNN `SE Vx, nn` (R131). -/
def execSeImm (x : Nibble) (nn : Byte) (s : State) : Host.Outcome State Fault Refusal :=
  finish true (.done (skipIf (decide (s.reg x = nn)) s))

/-- 4XNN `SNE Vx, nn` (R132). -/
def execSneImm (x : Nibble) (nn : Byte) (s : State) : Host.Outcome State Fault Refusal :=
  finish true (.done (skipIf (decide (s.reg x ≠ nn)) s))

/-- 5XY0 `SE Vx, Vy` (R133). -/
def execSeReg (x y : Nibble) (s : State) : Host.Outcome State Fault Refusal :=
  finish true (.done (skipIf (decide (s.reg x = s.reg y)) s))

/-- 9XY0 `SNE Vx, Vy` (R134). -/
def execSneReg (x y : Nibble) (s : State) : Host.Outcome State Fault Refusal :=
  finish true (.done (skipIf (decide (s.reg x ≠ s.reg y)) s))

/-- BNNN `JP V0, nnn` (R135): always register 0; `ai` = 0. -/
def execJpV0 (nnn : Addr12) (s : State) : Host.Outcome State Fault Refusal :=
  finish false (.done (s.setPc (addrOperand nnn + wideReg s 0#4)))

/-- 2NNN `CALL nnn` (R136): pushes the call's own address; `ai` = 0. -/
def execCall (nnn : Addr12) (s : State) : Host.Outcome State Fault Refusal :=
  finish false ((push s.pc s).andThen fun t => t.setPc (addrOperand nnn))

/-- 00EE `RET` (R137): the auto-increment moves `pc` past the matching call. -/
def execRet (s : State) : Host.Outcome State Fault Refusal :=
  finish true (popToPc s)

/-- 0NNN `SYS nnn` (30_encoding.md R79): no handler, so the step raises `UnknownInstruction(op)`. -/
def execSys (nnn : Addr12) (s : State) : Host.Outcome State Fault Refusal :=
  finish false (.raise (.unknownInstruction (encode (.sys nnn))) s)

end Sys2Proof.Machine
end

