-- ==== Sys2Proof/Machine/Display.lean ====
section
/-! DEFINITION. Display: clear and sprite draw (44_display.md R160 to R163). -/

namespace Sys2Proof.Machine

/-- 00E0 `CLS` (R160). -/
def execCls (s : State) : Host.Outcome State Fault Refusal :=
  finish true (.done (s.setFB Screen.blank))

/-- One on-screen pixel under a sprite bit 1 (R161): `x[15] <- 1` when it is on, then it is toggled. -/
def togglePixel (px py : Nat) (s : State) : State :=
  let on := pixelOn s.FB px py
  let t := if on then s.setReg flagReg 1#8 else s
  t.setFB (setPixel s.FB px py (!on))

/-- One column of a sprite row (R161): bit 7 is the leftmost pixel; columns past 63 are clipped. -/
def drawColumn (b : Byte) (x0 py : Nat) (s : State) (c : Nat) : State :=
  if x0 + c ≤ 63 ∧ b.getLsbD (7 - c) = true then togglePixel (x0 + c) py s else s

/-- One sprite row, columns left to right; rows past 31 are clipped (R161). -/
def drawRow (b : Byte) (x0 py : Nat) (s : State) : State :=
  if py ≤ 31 then (List.range 8).foldl (drawColumn b x0 py) s else s

/-- The sprite's rows from the byte at `addr`, the first of them at screen row `py`: every row is read, also
a clipped one (R161). -/
def drawRows (x0 : Nat) (addr : Word) (py : Nat) : Nat → State → Handled
  | 0, s => .done s
  | n + 1, s =>
    match memRead s addr with
    | .ok b => drawRows x0 (addr + 1#16) (py + 1) n (drawRow b x0 py s)
    | .error e => .raise e s

/-- The start column, `x[X] mod 64` (R161). -/
def startColumn (s : State) (x : Nibble) : Nat := (s.reg x).toNat % 64

/-- The start row, `x[Y] mod 32` (R161). -/
def startRow (s : State) (y : Nibble) : Nat := (s.reg y).toNat % 32

/-- DXYN `DRW Vx, Vy, n` (R161): the coordinates are read before `x[15]` is cleared. -/
def execDrw (x y n : Nibble) (s : State) : Host.Outcome State Fault Refusal :=
  finish true (drawRows (startColumn s x) s.I (startRow s y) n.toNat (s.setReg flagReg 0#8))

end Sys2Proof.Machine
end

