-- ==== Sys2Proof/Machine/Index.lean ====
section
/-! DEFINITION. Index register, random byte and font address (43_memory_index.md R150 to R154). -/

namespace Sys2Proof.Machine

/-- ANNN `LD I, nnn` (R150). -/
def execLdI (nnn : Addr12) (s : State) : Host.Outcome State Fault Refusal :=
  finish true (.done (s.setI (addrOperand nnn)))

/-- FX1E `ADD I, Vx` (R151): modulo 65536, no flag. -/
def execAddI (x : Nibble) (s : State) : Host.Outcome State Fault Refusal :=
  finish true (.done (s.setI (s.I + wideReg s x)))

/-- CXNN `RND Vx, nn` (R153): the next free byte, masked. -/
def execRnd (x : Nibble) (nn : Byte) (s : State) : Host.Outcome State Fault Refusal :=
  finish true (.done ((s.setReg x (Config.freeByte s.draws &&& nn)).setDraws (s.draws + 1)))

/-- FX29 `LD F, Vx` (R154): the address of the glyph of a hex digit; `refuse OutOfDomain` above 15. -/
def execLdFont (x : Nibble) (s : State) : Host.Outcome State Fault Refusal :=
  if inHexDomain (s.reg x) then finish true (.done (s.setI (glyphAddr s.params.fontBase (s.reg x))))
  else .refused .outOfDomain

end Sys2Proof.Machine
end

