-- ==== Sys2Proof/Machine/Input.lean ====
section
/-! DEFINITION. Input: key skips and the wait for a key (45_input.md R170 to R174). -/

namespace Sys2Proof.Machine

/-- EX9E `SKP Vx` (R170); `refuse OutOfDomain` when `x[X] > 15` (R174). -/
def execSkp (x : Nibble) (s : State) : Host.Outcome State Fault Refusal :=
  if inHexDomain (s.reg x) then finish true (.done (skipIf (keyHeld s.keys (s.reg x).toNat) s))
  else .refused .outOfDomain

/-- EXA1 `SKNP Vx` (R171); `refuse OutOfDomain` when `x[X] > 15` (R174). -/
def execSknp (x : Nibble) (s : State) : Host.Outcome State Fault Refusal :=
  if inHexDomain (s.reg x) then finish true (.done (skipIf (!keyHeld s.keys (s.reg x).toNat) s))
  else .refused .outOfDomain

/-- The handler of FX0A, run once per step (R172): enter the wait, leave it on a key-state change, or go on waiting. -/
def keyWait (x : Nibble) (s : State) : State :=
  if s.waiting = false then s.setLatch true s.keys
  else if s.keys ≠ s.waitKeys then
    (s.setReg x ((keySelect s.waitKeys s.keys).zeroExtend 8)).setLatch false s.waitKeys
  else s

/-- FX0A `LD Vx, K` (R172). -/
def execLdKey (x : Nibble) (s : State) : Host.Outcome State Fault Refusal :=
  finish true (.done (keyWait x s))

end Sys2Proof.Machine
end

