-- ==== Sys2Proof/Machine/Timers.lean ====
section
/-! DEFINITION. Timer access, BCD and bulk register transfer (46_timers_bcd_bulk.md R180 to R187). -/

namespace Sys2Proof.Machine

/-- FX07 `LD Vx, DT` (R180). -/
def execLdVxDT (x : Nibble) (s : State) : Host.Outcome State Fault Refusal :=
  finish true (.done (s.setReg x s.DT))

/-- FX15 `LD DT, Vx` (R181). -/
def execLdDTVx (x : Nibble) (s : State) : Host.Outcome State Fault Refusal :=
  finish true (.done (s.setDT (s.reg x)))

/-- FX18 `LD ST, Vx` (R182). -/
def execLdSTVx (x : Nibble) (s : State) : Host.Outcome State Fault Refusal :=
  finish true (.done (s.setST (s.reg x)))

/-- FX33 `LD B, Vx` (R183): `I` is not changed. -/
def execLdBcd (x : Nibble) (s : State) : Host.Outcome State Fault Refusal :=
  finish true (storeBytes s.I (bcdDigits (s.reg x)) s)

/-- The advance of `I` by X + 1, after the last access (R184, R185). -/
def advanceI (x : Nibble) (s : State) : State := s.setI (s.I + BitVec.ofNat 16 (regCount x))

/-- FX55 `LD [I], Vx` (R184). -/
def execStoreRegs (x : Nibble) (s : State) : Host.Outcome State Fault Refusal :=
  finish true ((storeBytes s.I (regsUpTo s x) s).andThen (advanceI x))

/-- FX65 `LD Vx, [I]` (R185). -/
def execLoadRegs (x : Nibble) (s : State) : Host.Outcome State Fault Refusal :=
  finish true ((loadBytes s.I 0#4 (regCount x) s).andThen (advanceI x))

end Sys2Proof.Machine
end

