-- ==== Sys2Proof/Machine/Ports.lean ====
section
/-! DEFINITION. The external interfaces (50_external_interfaces.md R200 to R212): tick, load, reset, the outputs,
and the bookkeeping of the driver's calls. -/

namespace Sys2Proof.Machine

/-- A timer's `tick()`: "decrement by 1, floor at 0" (10_state.md R32). -/
def tickTimer (t : Byte) : Byte := if t = 0#8 then t else t - 1#8

/-- `Tick()` on both timers (50_external_interfaces.md R204). -/
def tick (s : State) : State := { s with DT := tickTimer s.DT, ST := tickTimer s.ST }

/-- A timer after `n` ticks: `n` decrements, floor at 0 (R204). -/
def tickTimerTimes (n : Nat) (t : Byte) : Byte := if t = 0#8 then t else BitVec.ofNat 8 (t.toNat - n)

/-- The free ticks that fall before a Cycle when the driver's calls are not listed (R200, log 4). -/
def openTicks (s : State) : State :=
  { s with DT := tickTimerTimes (Config.freeTicks s.openCalls) s.DT,
           ST := tickTimerTimes (Config.freeTicks s.openCalls) s.ST }

/-- `Load(base, bytes)`: checked before copying; on failure no byte is written (20_memory.md R63). -/
def loadImage (base : Word) (bytes : List Byte) (s : State) : Except Fault State :=
  if 4096 < base.toNat + bytes.length then .error (.outOfRangeAccess (base.toNat + bytes.length - 1))
  else .ok (s.setMem (s.mem.setBytes base.toNat bytes))

/-- The loader's call: before the first Cycle only (R208, D30, log 8). -/
def loadCall (base : Word) (bytes : List Byte) (s : State) : Host.Outcome State Fault Refusal :=
  if s.started then .refused .loadAfterStart
  else
    match loadImage base bytes s with
    | .ok t => .next t
    | .error e => .fault e

/-- `Reset()`: every piece of state at the value of 10_state.md R41, `pc` at `ENTRY` (R210); the parameters, the
driver's coming calls and the free values' counters are no state of the machine and go on (log 15). -/
def resetMachine (s : State) : State :=
  { State.reset with
    pc := s.params.entry, params := s.params, calls := s.calls, openCalls := s.openCalls, draws := s.draws }

/-- The bookkeeping after a Cycle: its call is served, and the run has started. -/
def cycleServed (s : State) : State :=
  match s.calls with
  | _ :: rest => { s with calls := rest, started := true }
  | [] => { s with openCalls := s.openCalls + 1, started := true }

/-! ## Outputs (R201) -/

/-- A timer's `is_expired()`: "true iff current value is 0" (10_state.md R32). -/
def timerExpired (t : Byte) : Bool := t == 0#8

/-- Port `buzz`: the sound timer's `is_expired()` inverted, 1 exactly when `ST ≠ 0` (R206). -/
def buzz (s : State) : Bool := !timerExpired s.ST

/-- Port `fb`, `Snapshot()`: the grid as it stands (R207). -/
def snapshot (s : State) : Screen := s.FB

/-- Port `error`: the fatal error that stopped the engine, or none (R209). -/
def errorOutput (s : State) : Option Fault := s.halted

/-- The start-up order: Reset, the font image, the program image; the driver's Cycles come after
(70_reset_and_hazards.md R251 to R253). -/
def startUpCalls (p : Params) (font program : List Byte) : List HostCall :=
  [.reset, .load p.fontBase font, .load p.entry program]

end Sys2Proof.Machine
end

