-- ==== Sys2Proof/Machine/Cycle.lean ====
section
/-! DEFINITION. The engine's Cycle (40_execution_cycle.md R90 to R99), and where a placed instruction goes. -/

namespace Sys2Proof.Machine

/-- `Cycle(keys)` in the order of 40_execution_cycle.md R99: the halted test, fetch, the table match, the handler
with its auto-increment. A halted machine has no step (R96). -/
def cycle (s : State) : Host.Outcome State Fault Refusal :=
  match s.halted with
  | some e => .fault e
  | none =>
    match fetch s with
    | .error e => .next (takeError e s)
    | .ok op =>
      match decodeOp op with
      | .error _ => .next (takeError (.unknownInstruction op) s)
      | .ok i => exec i s

/-- The driver's Cycle call is served once the step is made. -/
def afterCycle (o : Host.Outcome State Fault Refusal) : Host.Outcome State Fault Refusal :=
  match o with
  | .next t => .next (cycleServed t)
  | .fault e => .fault e
  | .refused r => .refused r

/-- The driver's calls with a Cycle as the next one. -/
def callsForCycle (calls : List HostCall) : List HostCall :=
  match calls with
  | [] => []
  | .cycle k :: rest => .cycle k :: rest
  | .tick :: rest => .cycle 0#16 :: .tick :: rest
  | .load b bs :: rest => .cycle 0#16 :: .load b bs :: rest
  | .reset :: rest => .cycle 0#16 :: .reset :: rest

/-- Where an instruction can be placed: `pc`, or `ENTRY`, or the spec's default of it, whichever first leaves room
for two bytes (log 16). -/
def placeable (s : State) : Word :=
  if s.pc.toNat < 4095 then s.pc
  else if s.params.entry.toNat < 4095 then s.params.entry
  else Params.default.entry

end Sys2Proof.Machine
end

