-- ==== Sys2Proof/Machine/Step.lean ====
section
/-! DEFINITION. One step: a Cycle of the engine or another call of the driver (50_external_interfaces.md R200). -/

namespace Sys2Proof.Machine

/-- One step of the whole: the driver's oldest listed call, or, when none is listed, a Cycle with free keys after a
free number of ticks (log 4). -/
def step (s : State) : Host.Outcome State Fault Refusal :=
  match s.calls with
  | [] => afterCycle (cycle (openTicks s))
  | .cycle _ :: _ => afterCycle (cycle s)
  | .tick :: rest => .next (tick { s with calls := rest })
  | .load base bytes :: rest => loadCall base bytes { s with calls := rest }
  | .reset :: rest => .next (resetMachine { s with calls := rest })

/-- `s` with a word stored where the next step fetches it, a Cycle as the next call, and not halted (log 16). -/
def State.withFetchWord (s : State) (nbits w : Nat) : State :=
  { s with
    pc := placeable s
    mem := s.mem.setBytes (placeable s).toNat (wordBytes (tableWord nbits w))
    halted := none
    calls := callsForCycle s.calls }

end Sys2Proof.Machine
end

