-- ==== Sys2Proof/Safety.lean ====
section
/-! DEFINITION. The terms claims are stated in: what a step leaves alone, when a run is safe, and the invariants. -/

namespace Sys2Proof.Machine

/-! ## Frames -/

/-- The pieces of state a frame speaks of: those of 10_state.md, then the model's own. -/
inductive Part where
  | mem | regs | index | pc | stack | delayTimer | soundTimer | screen | latch | halt | draws | inputs
  deriving DecidableEq, Repr

/-- A piece of state is as before; memory is compared byte by byte, registers one by one. -/
def Unchanged (p : Part) (s t : State) : Prop :=
  match p with
  | .mem => ∀ a, t.mem.byteAt a = s.mem.byteAt a
  | .regs => ∀ r, t.reg r = s.reg r
  | .index => t.I = s.I
  | .pc => t.pc = s.pc
  | .stack => t.stack = s.stack ∧ t.sp = s.sp
  | .delayTimer => t.DT = s.DT
  | .soundTimer => t.ST = s.ST
  | .screen => ∀ px py, pixelOn t.FB px py = pixelOn s.FB px py
  | .latch => t.waiting = s.waiting ∧ t.waitKeys = s.waitKeys
  | .halt => t.halted = s.halted
  | .draws => t.draws = s.draws
  | .inputs => t.params = s.params ∧ t.calls = s.calls ∧ t.openCalls = s.openCalls ∧ t.started = s.started

/-- Only the listed pieces of state may differ. -/
def OnlyChanges (ps : List Part) (s t : State) : Prop := ∀ p, p ∉ ps → Unchanged p s t

/-- Every register but the listed ones is as before. -/
def OtherRegsSame (rs : List Nibble) (s t : State) : Prop := ∀ r, r ∉ rs → t.reg r = s.reg r

/-- `pc` after an auto-incrementing instruction: `pc +16 2`, or unchanged while the engine waits for a key
(40_execution_cycle.md R94). -/
def State.nextPc (s : State) : Word := bif s.waiting then s.pc else s.pc + 2#16

/-- `pc` after a skip: 2 further when the condition holds (10_state.md R27). -/
def State.skipPc (s : State) (taken : Bool) : Word := bif taken then s.nextPc + 2#16 else s.nextPc

/-- The pieces of state an instruction may write, from the instruction rules (10_state.md R23, R24, R27, R33, R34);
`halt` where it can raise an error (60_exceptions.md R223). -/
def partsWritten (i : Instr) : List Part :=
  match i with
  | .ldImm _ _ | .addImm _ _ | .ldReg _ _ | .orReg _ _ | .andReg _ _ | .xorReg _ _ | .addReg _ _ | .subReg _ _
  | .shr _ _ | .subn _ _ | .shl _ _ | .ldVxDT _ => [.regs, .pc]
  | .jp _ | .jpV0 _ | .seImm _ _ | .sneImm _ _ | .seReg _ _ | .sneReg _ _ | .skp _ | .sknp _ => [.pc]
  | .call _ | .ret => [.stack, .pc, .halt]
  | .ldI _ | .addI _ | .ldFont _ => [.index, .pc]
  | .rnd _ _ => [.regs, .pc, .draws]
  | .cls => [.screen, .pc]
  | .drw _ _ _ => [.regs, .screen, .pc, .halt]
  | .ldKey _ => [.regs, .latch, .pc]
  | .ldDTVx _ => [.delayTimer, .pc]
  | .ldSTVx _ => [.soundTimer, .pc]
  | .ldBcd _ => [.mem, .pc, .halt]
  | .storeRegs _ => [.mem, .index, .pc, .halt]
  | .loadRegs _ => [.regs, .index, .pc, .halt]
  | .sys _ => [.halt]

/-- Whether an instruction may write register `r`: its destination, and `x[15]` where it is also the flag
(10_state.md R21, R23). -/
def mayWriteReg (i : Instr) (r : Nibble) : Bool :=
  match i with
  | .ldImm x _ | .addImm x _ | .ldReg x _ | .rnd x _ | .ldKey x | .ldVxDT x => r == x
  | .orReg x _ | .andReg x _ | .xorReg x _ | .addReg x _ | .subReg x _ | .shr x _ | .subn x _ | .shl x _ =>
    r == x || r == flagReg
  | .drw _ _ _ => r == flagReg
  | .loadRegs x => decide (r.toNat ≤ x.toNat)
  | .jp _ | .jpV0 _ | .seImm _ _ | .sneImm _ _ | .seReg _ _ | .sneReg _ _ | .skp _ | .sknp _ | .call _ | .ret
  | .ldI _ | .addI _ | .ldFont _ | .cls | .ldDTVx _ | .ldSTVx _ | .ldBcd _ | .storeRegs _ | .sys _ => false

/-- Memory after a block store of `bs` from address `base`: the bytes inside the array are stored, every other
address reads as before (20_memory.md R54). -/
def StoredFrom (base : Nat) (bs : List Byte) (s t : State) : Prop :=
  ∀ a, t.mem.byteAt a =
    if h : base ≤ a ∧ a < base + bs.length ∧ a < 4096 then bs[a - base]'(by omega) else s.mem.byteAt a

/-! ## Engine states and runs -/

/-- `Running`: not waiting and not halted (10_state.md R37). -/
def State.Running (s : State) : Prop := s.waiting = false ∧ s.halted = none

/-- `AwaitingKey`: the wait of FX0A (10_state.md R37). -/
def State.AwaitingKey (s : State) : Prop := s.waiting = true

/-- `Halted(e)`: stopped by a fatal error for good (10_state.md R37). -/
def State.HaltedBy (s : State) (e : Fault) : Prop := s.halted = some e

/-- A safe state: no fatal error has stopped the engine (60_exceptions.md R221). -/
def State.Safe (s : State) : Prop := s.halted = none

/-- A run of `n` steps is safe: it comes to a next state, and that state is safe. -/
def SafeRun (n : Nat) (s : State) : Prop := ∃ t, Sys2Proof.core.run n s = .next t ∧ t.Safe

/-- Instructions executed one after another, stopping at the first fault or refusal. -/
def execAll : List Instr → State → Host.Outcome State Fault Refusal
  | [], s => .next s
  | i :: rest, s =>
    match exec i s with
    | .next t => execAll rest t
    | .fault e => .fault e
    | .refused r => .refused r

/-- The spec's convention for a finished program: a jump to itself (70_reset_and_hazards.md R258). -/
def State.AtSelfJump (s : State) : Prop :=
  s.Running ∧ ∃ nnn : Addr12, s.pc = addrOperand nnn ∧ fetch s = .ok (encode (.jp nnn))

/-- The driver's next call is a Cycle: one is listed first, or none is listed. -/
def State.CycleNext (s : State) : Prop := s.calls = [] ∨ ∃ k rest, s.calls = .cycle k :: rest

/-- The state in which the Cycle of the next step runs: before a Cycle that is not listed a free number of ticks
falls (log 4). -/
def State.beforeCycle (s : State) : State := if s.calls = [] then openTicks s else s

/-! ## Invariants -/

/-- Memory keeps its canonical form (10_state.md R38). -/
def State.MemCanonical (s : State) : Prop := s.mem.wf = true

/-- `pc` stays at most 0x10FE and every stack entry in use at most 4094, so the wrap at 65536 is never reached
(10_state.md R27); `ENTRY` is assumed no larger. -/
def State.PcBounded (s : State) : Prop :=
  s.pc.toNat ≤ 0x10FE ∧ s.params.entry.toNat ≤ 0x10FE ∧
    ∀ k (h : k < 16), k < s.sp.val → (s.stack[k]'h).toNat ≤ 4094

/-- A waiting engine stands at the FX0A it waits in (40_execution_cycle.md R97). -/
def State.WaitsAtKeyInstr (s : State) : Prop :=
  s.waiting = true → s.halted = none ∧ s.started = true ∧ ∃ x, fetch s = .ok (encode (.ldKey x))

/-! ## Sprites in closed form (44_display.md R161) -/

/-- Whether a sprite of `n` rows at column `x0`, row `y0`, with its bytes at `I`, has a 1 bit over the pixel
`(px, py)`: no column or row wraps around. -/
def spriteBit (s : State) (x0 y0 n px py : Nat) : Bool :=
  decide (x0 ≤ px ∧ px < x0 + 8 ∧ y0 ≤ py ∧ py < y0 + n) &&
    (s.mem.byteAt (s.I.toNat + (py - y0))).getLsbD (7 - (px - x0))

/-- What drawing the first `n` rows of a sprite leaves: each on-screen pixel under a 1 bit is toggled, no other
pixel changes, and `x[15]` tells whether a pixel that was on was turned off. -/
def DrawnRows (s t : State) (x0 y0 n : Nat) : Prop :=
  (∀ px py, px < 64 → py < 32 → pixelOn t.FB px py = (pixelOn s.FB px py ^^ spriteBit s x0 y0 n px py)) ∧
  (t.reg flagReg = 0#8 ∨ t.reg flagReg = 1#8) ∧
  (t.reg flagReg = 1#8 ↔
    ∃ px py, px < 64 ∧ py < 32 ∧ pixelOn s.FB px py = true ∧ spriteBit s x0 y0 n px py = true)

/-- The address an access block from `addr` reports when it runs out of memory: the first one at or above 4096
(60_exceptions.md R225). -/
def firstOutOfRange (addr : Word) : Nat := max addr.toNat 4096

end Sys2Proof.Machine
end

