-- ==== Sys2Proof/Certificates/Slice0/Obligations.lean ====
section
/-! DEFINITION. The statements for the provers. Each docstring names the rule of spec/ it formalises.
An instruction statement gives the word that encodes the instruction (a clause that rests on the patterns of log 11),
the result, and its frame. -/

open Sys2Proof Sys2Proof.Machine

/-! ## Encoding (30_encoding.md) -/

/-- Words of 95_test_vectors.md section 2.0 and of the examples of the instruction rules, one of each family. -/
def Obligations.SampleWordsDecode : Prop :=
  decodeOp 0x6AFF = .ok (.ldImm 0xA 0xFF) ∧ decodeOp 0x8AB4 = .ok (.addReg 0xA 0xB) ∧
  decodeOp 0x1234 = .ok (.jp 0x234) ∧ decodeOp 0x00EE = .ok .ret ∧ decodeOp 0xF21E = .ok (.addI 0x2) ∧
  decodeOp 0x00E0 = .ok .cls ∧ decodeOp 0xD125 = .ok (.drw 0x1 0x2 0x5) ∧ decodeOp 0xE49E = .ok (.skp 0x4) ∧
  decodeOp 0xF365 = .ok (.loadRegs 0x3) ∧ decodeOp 0x0123 = .ok (.sys 0x123) ∧
  decodeOp 0x5121 = .error (.unknownWord 0x5121) ∧ decodeOp 0x8AB8 = .error (.unknownWord 0x8AB8)

/-- Decoding an encoded well-formed instruction gives it back, with every operand at every value. -/
def Obligations.DecodeOfEncodeIsInstruction : Prop :=
  ∀ i : Instr, i.wf = true → decodeOp (encode i) = .ok i

/-- A decoded word is the encoding of what it decodes to, which is well formed: no bit of a word is dropped. -/
def Obligations.EncodeOfDecodedIsWord : Prop :=
  ∀ (op : Word) (i : Instr), decodeOp op = .ok i → encode i = op ∧ i.wf = true

/-- 30_encoding.md R78: no word matches two of the rows 1 to 34. -/
def Obligations.DefinedRowsShareNoWord : Prop :=
  definedRows.length = 34 ∧
  definedRows.Pairwise fun p q => ∀ op : Word, ¬(rowMatches op p = true ∧ rowMatches op q = true)

/-- 30_encoding.md R79: the words that no handler serves, by opcode nibble, last nibble and low byte. -/
def Obligations.WordsWithoutHandler : Prop :=
  ∀ (f x y n : Nibble),
    ((∀ i, decodeOp (f ++ x ++ y ++ n) ≠ .ok i) ↔
      (f = 0x5 ∧ n ≠ 0x0) ∨ (f = 0x9 ∧ n ≠ 0x0) ∨
      (f = 0x8 ∧ n ∈ [0x8, 0x9, 0xA, 0xB, 0xC, 0xD, 0xF]) ∨
      (f = 0xE ∧ (y, n) ∉ [((0x9 : Nibble), (0xE : Nibble)), (0xA, 0x1)]) ∨
      (f = 0xF ∧ (y, n) ∉ [((0x0 : Nibble), (0x7 : Nibble)), (0x0, 0xA), (0x1, 0x5), (0x1, 0x8), (0x1, 0xE), (0x2, 0x9),
        (0x3, 0x3), (0x5, 0x5), (0x6, 0x5)])) ∧
    ((∃ nnn, decodeOp (f ++ x ++ y ++ n) = .ok (.sys nnn)) ↔
      f = 0x0 ∧ ¬(x = 0x0 ∧ y = 0xE ∧ (n = 0x0 ∨ n = 0xE)))

/-! ## Register load and arithmetic (41_register_arithmetic.md) -/

/-- R110, 6XNN. -/
def Obligations.LoadImmediateSetsRegister : Prop :=
  ∀ (x : Nibble) (nn : Byte) (s : State),
    decodeOp (0x6#4 ++ x ++ nn) = .ok (.ldImm x nn) ∧
    ∃ t, exec (.ldImm x nn) s = .next t ∧ t.reg x = nn ∧ t.pc = s.nextPc ∧
      OtherRegsSame [x] s t ∧ OnlyChanges [.regs, .pc] s t

/-- R111, 7XNN: no flag. -/
def Obligations.AddImmediateWrapsWithoutFlag : Prop :=
  ∀ (x : Nibble) (nn : Byte) (s : State),
    decodeOp (0x7#4 ++ x ++ nn) = .ok (.addImm x nn) ∧
    ∃ t, exec (.addImm x nn) s = .next t ∧ (t.reg x).toNat = ((s.reg x).toNat + nn.toNat) % 256 ∧
      t.pc = s.nextPc ∧ OtherRegsSame [x] s t ∧ OnlyChanges [.regs, .pc] s t

/-- R112, 8XY0. -/
def Obligations.CopyRegisterCopies : Prop :=
  ∀ (x y : Nibble) (s : State),
    decodeOp (0x8#4 ++ x ++ y ++ 0x0#4) = .ok (.ldReg x y) ∧
    ∃ t, exec (.ldReg x y) s = .next t ∧ t.reg x = s.reg y ∧ t.pc = s.nextPc ∧
      OtherRegsSame [x] s t ∧ OnlyChanges [.regs, .pc] s t

/-- R113, R114, R115, 8XY1 to 8XY3: the result, then `x[15]` cleared (that order: log 12). -/
def Obligations.LogicOperationsClearFlag : Prop :=
  ∀ (x y : Nibble) (s : State),
    (decodeOp (0x8#4 ++ x ++ y ++ 0x1#4) = .ok (.orReg x y) ∧
     ∃ t, exec (.orReg x y) s = .next t ∧ (x ≠ 15#4 → t.reg x = s.reg x ||| s.reg y) ∧ t.reg 15#4 = 0#8 ∧
       t.pc = s.nextPc ∧ OtherRegsSame [x, 15#4] s t ∧ OnlyChanges [.regs, .pc] s t) ∧
    (decodeOp (0x8#4 ++ x ++ y ++ 0x2#4) = .ok (.andReg x y) ∧
     ∃ t, exec (.andReg x y) s = .next t ∧ (x ≠ 15#4 → t.reg x = s.reg x &&& s.reg y) ∧ t.reg 15#4 = 0#8 ∧
       t.pc = s.nextPc ∧ OtherRegsSame [x, 15#4] s t ∧ OnlyChanges [.regs, .pc] s t) ∧
    (decodeOp (0x8#4 ++ x ++ y ++ 0x3#4) = .ok (.xorReg x y) ∧
     ∃ t, exec (.xorReg x y) s = .next t ∧ (x ≠ 15#4 → t.reg x = s.reg x ^^^ s.reg y) ∧ t.reg 15#4 = 0#8 ∧
       t.pc = s.nextPc ∧ OtherRegsSame [x, 15#4] s t ∧ OnlyChanges [.regs, .pc] s t)

/-- R116, 8XY4: the sum modulo 256, then the carry (that order: log 12). -/
def Obligations.AddRegistersSetsCarry : Prop :=
  ∀ (x y : Nibble) (s : State),
    decodeOp (0x8#4 ++ x ++ y ++ 0x4#4) = .ok (.addReg x y) ∧
    ∃ t, exec (.addReg x y) s = .next t ∧
      (x ≠ 15#4 → (t.reg x).toNat = ((s.reg x).toNat + (s.reg y).toNat) % 256) ∧
      t.reg 15#4 = (if 255 < (s.reg x).toNat + (s.reg y).toNat then 1#8 else 0#8) ∧
      t.pc = s.nextPc ∧ OtherRegsSame [x, 15#4] s t ∧ OnlyChanges [.regs, .pc] s t

/-- R117, R119, 8XY5 and 8XY7: the difference modulo 256, then not-borrow (that order: log 12). -/
def Obligations.SubtractionsSetNotBorrow : Prop :=
  ∀ (x y : Nibble) (s : State),
    (decodeOp (0x8#4 ++ x ++ y ++ 0x5#4) = .ok (.subReg x y) ∧
     ∃ t, exec (.subReg x y) s = .next t ∧
       (x ≠ 15#4 → (t.reg x).toNat = ((s.reg x).toNat + 256 - (s.reg y).toNat) % 256) ∧
       t.reg 15#4 = (if (s.reg x).toNat < (s.reg y).toNat then 0#8 else 1#8) ∧
       t.pc = s.nextPc ∧ OtherRegsSame [x, 15#4] s t ∧ OnlyChanges [.regs, .pc] s t) ∧
    (decodeOp (0x8#4 ++ x ++ y ++ 0x7#4) = .ok (.subn x y) ∧
     ∃ t, exec (.subn x y) s = .next t ∧
       (x ≠ 15#4 → (t.reg x).toNat = ((s.reg y).toNat + 256 - (s.reg x).toNat) % 256) ∧
       t.reg 15#4 = (if (s.reg y).toNat < (s.reg x).toNat then 0#8 else 1#8) ∧
       t.pc = s.nextPc ∧ OtherRegsSame [x, 15#4] s t ∧ OnlyChanges [.regs, .pc] s t)

/-- R118, R120, 8XY6 and 8XYE: in place on `x[X]`, Y ignored, then the bit shifted out (that order: log 12). -/
def Obligations.ShiftsInPlaceSetShiftedOutBit : Prop :=
  ∀ (x y : Nibble) (s : State),
    (decodeOp (0x8#4 ++ x ++ y ++ 0x6#4) = .ok (.shr x y) ∧
     ∃ t, exec (.shr x y) s = .next t ∧ (x ≠ 15#4 → (t.reg x).toNat = (s.reg x).toNat / 2) ∧
       (t.reg 15#4).toNat = (s.reg x).toNat % 2 ∧
       t.pc = s.nextPc ∧ OtherRegsSame [x, 15#4] s t ∧ OnlyChanges [.regs, .pc] s t) ∧
    (decodeOp (0x8#4 ++ x ++ y ++ 0xE#4) = .ok (.shl x y) ∧
     ∃ t, exec (.shl x y) s = .next t ∧ (x ≠ 15#4 → (t.reg x).toNat = 2 * (s.reg x).toNat % 256) ∧
       (t.reg 15#4).toNat = (s.reg x).toNat / 128 ∧
       t.pc = s.nextPc ∧ OtherRegsSame [x, 15#4] s t ∧ OnlyChanges [.regs, .pc] s t)

/-! ## Control transfer (42_control_transfer.md) -/

/-- R130, R135, 1NNN and BNNN: the target is not reduced, aligned or checked. -/
def Obligations.JumpsSetProgramCounter : Prop :=
  ∀ (nnn : Addr12) (s : State),
    (decodeOp (0x1#4 ++ nnn) = .ok (.jp nnn) ∧
     ∃ t, exec (.jp nnn) s = .next t ∧ t.pc.toNat = nnn.toNat ∧ OnlyChanges [.pc] s t) ∧
    (decodeOp (0xB#4 ++ nnn) = .ok (.jpV0 nnn) ∧
     ∃ t, exec (.jpV0 nnn) s = .next t ∧ t.pc.toNat = nnn.toNat + (s.reg 0#4).toNat ∧ OnlyChanges [.pc] s t)

/-- R131, R132, 3XNN and 4XNN. -/
def Obligations.SkipsOnImmediate : Prop :=
  ∀ (x : Nibble) (nn : Byte) (s : State),
    (decodeOp (0x3#4 ++ x ++ nn) = .ok (.seImm x nn) ∧
     ∃ t, exec (.seImm x nn) s = .next t ∧ t.pc = s.skipPc (decide (s.reg x = nn)) ∧ OnlyChanges [.pc] s t) ∧
    (decodeOp (0x4#4 ++ x ++ nn) = .ok (.sneImm x nn) ∧
     ∃ t, exec (.sneImm x nn) s = .next t ∧ t.pc = s.skipPc (decide (s.reg x ≠ nn)) ∧ OnlyChanges [.pc] s t)

/-- R133, R134, 5XY0 and 9XY0. -/
def Obligations.SkipsOnRegister : Prop :=
  ∀ (x y : Nibble) (s : State),
    (decodeOp (0x5#4 ++ x ++ y ++ 0x0#4) = .ok (.seReg x y) ∧
     ∃ t, exec (.seReg x y) s = .next t ∧ t.pc = s.skipPc (decide (s.reg x = s.reg y)) ∧ OnlyChanges [.pc] s t) ∧
    (decodeOp (0x9#4 ++ x ++ y ++ 0x0#4) = .ok (.sneReg x y) ∧
     ∃ t, exec (.sneReg x y) s = .next t ∧ t.pc = s.skipPc (decide (s.reg x ≠ s.reg y)) ∧ OnlyChanges [.pc] s t)

/-- R136, 2NNN: pushes the call's own address, or overflows with nothing pushed and `pc` unchanged. -/
def Obligations.CallPushesOwnAddress : Prop :=
  ∀ (nnn : Addr12) (s : State),
    decodeOp (0x2#4 ++ nnn) = .ok (.call nnn) ∧
    (s.sp.val < 16 → ∃ t, exec (.call nnn) s = .next t ∧ t.sp.val = s.sp.val + 1 ∧
      t.stack[s.sp.val]? = some s.pc ∧ (∀ k, k ≠ s.sp.val → t.stack[k]? = s.stack[k]?) ∧
      t.pc.toNat = nnn.toNat ∧ OnlyChanges [.stack, .pc] s t) ∧
    (s.sp.val = 16 → ∃ t, exec (.call nnn) s = .next t ∧ t.halted = some .stackOverflow ∧ OnlyChanges [.halt] s t)

/-- R137, 00EE: pops into `pc` and moves past the call, or underflows with `pc` and `sp` unchanged. -/
def Obligations.ReturnPopsPastCall : Prop :=
  ∀ s : State,
    decodeOp 0x00EE = .ok .ret ∧
    (∀ v, 0 < s.sp.val → s.stack[s.sp.val - 1]? = some v → ∃ t, exec .ret s = .next t ∧ t.sp.val = s.sp.val - 1 ∧
      t.stack = s.stack ∧ t.pc = (bif s.waiting then v else v + 2#16) ∧ OnlyChanges [.stack, .pc] s t) ∧
    (s.sp.val = 0 → ∃ t, exec .ret s = .next t ∧ t.halted = some .stackUnderflow ∧ OnlyChanges [.halt] s t)

/-- R136, R137, R138: a return from whatever state keeps the stack a call left goes to the address after the
call, with the stack as deep as before it. -/
def Obligations.ReturnGoesPastMatchingCall : Prop :=
  ∀ (nnn : Addr12) (s : State), s.sp.val < 16 → ∃ t, exec (.call nnn) s = .next t ∧
    ∀ u : State, u.stack = t.stack → u.sp = t.sp → u.waiting = false →
      ∃ v, exec .ret u = .next v ∧ v.pc = s.pc + 2#16 ∧ v.sp = s.sp ∧ v.halted = u.halted

/-- 10_state.md R31: 16 consecutive calls succeed, a 17th overflows, a return with an empty stack underflows. -/
def Obligations.StackDisciplineSixteenDeep : Prop :=
  ∀ s : State, s.sp.val = 0 → s.halted = none →
    (∀ targets : List Addr12, targets.length = 16 → ∃ t, execAll (targets.map Instr.call) s = .next t ∧
      t.halted = none ∧ t.sp.val = 16 ∧
      ∀ nnn, ∃ u, exec (.call nnn) t = .next u ∧ u.halted = some .stackOverflow ∧ OnlyChanges [.halt] t u) ∧
    ∃ u, exec .ret s = .next u ∧ u.halted = some .stackUnderflow

/-- 30_encoding.md R79, 0NNN: the row without a handler raises `UnknownInstruction` of its own word; nothing else
changes. -/
def Obligations.SysRaisesUnknownInstruction : Prop :=
  ∀ (nnn : Addr12) (s : State),
    (nnn ≠ 0x0E0#12 → nnn ≠ 0x0EE#12 → decodeOp (0x0#4 ++ nnn) = .ok (.sys nnn)) ∧
    ∃ t, exec (.sys nnn) s = .next t ∧ t.halted = some (.unknownInstruction (0x0#4 ++ nnn)) ∧
      OnlyChanges [.halt] s t

/-! ## Index register, random, font (43_memory_index.md) -/

/-- R150, ANNN. -/
def Obligations.LoadIndexSetsIndex : Prop :=
  ∀ (nnn : Addr12) (s : State),
    decodeOp (0xA#4 ++ nnn) = .ok (.ldI nnn) ∧
    ∃ t, exec (.ldI nnn) s = .next t ∧ t.I.toNat = nnn.toNat ∧ t.pc = s.nextPc ∧ OnlyChanges [.index, .pc] s t

/-- R151, FX1E: modulo 65536, and no flag (no register changes). -/
def Obligations.AddIndexWrapsWithoutFlag : Prop :=
  ∀ (x : Nibble) (s : State),
    decodeOp (0xF#4 ++ x ++ 0x1E#8) = .ok (.addI x) ∧
    ∃ t, exec (.addI x) s = .next t ∧ t.I.toNat = (s.I.toNat + (s.reg x).toNat) % 65536 ∧ t.pc = s.nextPc ∧
      OnlyChanges [.index, .pc] s t

/-- R153, CXNN: the draw is the free byte of the model's counter `draws` (log 5), used once; masked bits are 0. -/
def Obligations.RandomByteIsMasked : Prop :=
  ∀ (x : Nibble) (nn : Byte) (s : State),
    decodeOp (0xC#4 ++ x ++ nn) = .ok (.rnd x nn) ∧
    ∃ t, exec (.rnd x nn) s = .next t ∧ t.reg x = Config.freeByte s.draws &&& nn ∧ t.reg x &&& ~~~nn = 0#8 ∧
      t.draws = s.draws + 1 ∧ t.pc = s.nextPc ∧ OtherRegsSame [x] s t ∧ OnlyChanges [.regs, .pc, .draws] s t

/-- R154, FX29: the glyph's address for a hex digit; `refuse OutOfDomain` above 15. -/
def Obligations.FontAddressOfHexDigit : Prop :=
  ∀ (x : Nibble) (s : State),
    decodeOp (0xF#4 ++ x ++ 0x29#8) = .ok (.ldFont x) ∧
    ((s.reg x).toNat ≤ 15 → ∃ t, exec (.ldFont x) s = .next t ∧
      t.I.toNat = (s.params.fontBase.toNat + 5 * (s.reg x).toNat) % 65536 ∧ t.pc = s.nextPc ∧
      OnlyChanges [.index, .pc] s t) ∧
    (15 < (s.reg x).toNat → exec (.ldFont x) s = .refused .outOfDomain)

/-! ## Display (44_display.md) -/

/-- R160, 00E0. -/
def Obligations.ClearTurnsEveryPixelOff : Prop :=
  ∀ s : State,
    decodeOp 0x00E0 = .ok .cls ∧
    ∃ t, exec .cls s = .next t ∧ (∀ px py, pixelOn t.FB px py = false) ∧ t.pc = s.nextPc ∧
      OnlyChanges [.screen, .pc] s t

/-- R161, DXYN: all rows drawn when the sprite lies in memory, else the rows before the first address at or above
4096 and the access error, with `pc` unchanged. -/
def Obligations.DrawTogglesSpritePixels : Prop :=
  ∀ (x y n : Nibble) (s : State),
    decodeOp (0xD#4 ++ x ++ y ++ n) = .ok (.drw x y n) ∧
    (s.I.toNat + n.toNat ≤ 4096 ∨ n = 0#4 → ∃ t, exec (.drw x y n) s = .next t ∧
      DrawnRows s t ((s.reg x).toNat % 64) ((s.reg y).toNat % 32) n.toNat ∧ t.pc = s.nextPc ∧
      OtherRegsSame [15#4] s t ∧ OnlyChanges [.regs, .screen, .pc] s t) ∧
    (4096 < s.I.toNat + n.toNat ∧ n ≠ 0#4 → ∃ t, exec (.drw x y n) s = .next t ∧
      DrawnRows s t ((s.reg x).toNat % 64) ((s.reg y).toNat % 32) (4096 - s.I.toNat) ∧
      t.halted = some (.outOfRangeAccess (firstOutOfRange s.I)) ∧
      OtherRegsSame [15#4] s t ∧ OnlyChanges [.regs, .screen, .halt] s t)

/-- R163: two draws of the same sprite at the same position restore the framebuffer, and the second reports a
collision exactly when the first turned a pixel on. -/
def Obligations.DoubleDrawRestoresScreen : Prop :=
  ∀ (x y n : Nibble) (s t : State), s.I.toNat + n.toNat ≤ 4096 ∨ n = 0#4 → exec (.drw x y n) s = .next t →
    t.reg x = s.reg x → t.reg y = s.reg y →
    ∃ u, exec (.drw x y n) t = .next u ∧ (∀ px py, pixelOn u.FB px py = pixelOn s.FB px py) ∧
      (u.reg 15#4 = 1#8 ↔ ∃ px py, px < 64 ∧ py < 32 ∧ pixelOn s.FB px py = false ∧
        spriteBit s ((s.reg x).toNat % 64) ((s.reg y).toNat % 32) n.toNat px py = true)

/-! ## Input (45_input.md) -/

/-- R170, R171, R174, EX9E and EXA1: a skip on one key of this step's `keys`; `refuse OutOfDomain` above 15. -/
def Obligations.KeySkipsTestOneKey : Prop :=
  ∀ (x : Nibble) (s : State),
    decodeOp (0xE#4 ++ x ++ 0x9E#8) = .ok (.skp x) ∧ decodeOp (0xE#4 ++ x ++ 0xA1#8) = .ok (.sknp x) ∧
    ((s.reg x).toNat ≤ 15 →
      (∃ t, exec (.skp x) s = .next t ∧ t.pc = s.skipPc (s.keys.getLsbD (s.reg x).toNat) ∧ OnlyChanges [.pc] s t) ∧
      (∃ t, exec (.sknp x) s = .next t ∧ t.pc = s.skipPc (!s.keys.getLsbD (s.reg x).toNat) ∧
        OnlyChanges [.pc] s t)) ∧
    (15 < (s.reg x).toNat →
      exec (.skp x) s = .refused .outOfDomain ∧ exec (.sknp x) s = .refused .outOfDomain)

/-- R172, FX0A: the first visit enters the wait, a changed key state ends it, else the step changes nothing. -/
def Obligations.KeyWaitEndsOnKeyChange : Prop :=
  ∀ (x : Nibble) (s : State),
    decodeOp (0xF#4 ++ x ++ 0x0A#8) = .ok (.ldKey x) ∧
    (s.waiting = false → ∃ t, exec (.ldKey x) s = .next t ∧ t.waiting = true ∧ t.waitKeys = s.keys ∧
      OnlyChanges [.latch] s t) ∧
    (s.waiting = true → s.keys ≠ s.waitKeys → ∃ t, exec (.ldKey x) s = .next t ∧ t.waiting = false ∧
      t.waitKeys = s.waitKeys ∧ (t.reg x).toNat = (keySelect s.waitKeys s.keys).toNat ∧ t.pc = s.pc + 2#16 ∧
      OtherRegsSame [x] s t ∧ OnlyChanges [.regs, .latch, .pc] s t) ∧
    (s.waiting = true → s.keys = s.waitKeys → exec (.ldKey x) s = .next s)

/-- R173: the machine's `KEY_SELECT` and the spec's default meet the constraint of a single press, and the default is
the lowest newly pressed key, else the lowest released one. -/
def Obligations.KeySelectOfSinglePress : Prop :=
  KeySelectAdmissible keySelect ∧ KeySelectAdmissible keySelectDefault ∧
  ∀ (prev cur : Word) (k : Nat), k < 16 →
    ((cur &&& ~~~prev).getLsbD k = true → (∀ j < k, (cur &&& ~~~prev).getLsbD j = false) →
      keySelectDefault prev cur = BitVec.ofNat 4 k) ∧
    (cur &&& ~~~prev = 0#16 → (prev ^^^ cur).getLsbD k = true → (∀ j < k, (prev ^^^ cur).getLsbD j = false) →
      keySelectDefault prev cur = BitVec.ofNat 4 k)

/-! ## Timers, BCD, bulk transfer (46_timers_bcd_bulk.md) -/

/-- R180, R181, R182, FX07, FX15, FX18. -/
def Obligations.TimerInstructionsCopy : Prop :=
  ∀ (x : Nibble) (s : State),
    (decodeOp (0xF#4 ++ x ++ 0x07#8) = .ok (.ldVxDT x) ∧
     ∃ t, exec (.ldVxDT x) s = .next t ∧ t.reg x = s.DT ∧ t.pc = s.nextPc ∧
       OtherRegsSame [x] s t ∧ OnlyChanges [.regs, .pc] s t) ∧
    (decodeOp (0xF#4 ++ x ++ 0x15#8) = .ok (.ldDTVx x) ∧
     ∃ t, exec (.ldDTVx x) s = .next t ∧ t.DT = s.reg x ∧ t.pc = s.nextPc ∧ OnlyChanges [.delayTimer, .pc] s t) ∧
    (decodeOp (0xF#4 ++ x ++ 0x18#8) = .ok (.ldSTVx x) ∧
     ∃ t, exec (.ldSTVx x) s = .next t ∧ t.ST = s.reg x ∧ t.pc = s.nextPc ∧ OnlyChanges [.soundTimer, .pc] s t)

/-- R183, FX33: three digits at I, I + 1, I + 2, those inside memory in either case; an address at or above 4096
raises the access error. -/
def Obligations.BcdStoresThreeDigits : Prop :=
  ∀ (x : Nibble) (s : State), s.MemCanonical →
    decodeOp (0xF#4 ++ x ++ 0x33#8) = .ok (.ldBcd x) ∧
    ∃ t d100 d10 d1, exec (.ldBcd x) s = .next t ∧
      d100.toNat = (s.reg x).toNat / 100 ∧ d10.toNat = (s.reg x).toNat / 10 % 10 ∧ d1.toNat = (s.reg x).toNat % 10 ∧
      StoredFrom s.I.toNat [d100, d10, d1] s t ∧
      (s.I.toNat + 3 ≤ 4096 → t.pc = s.nextPc ∧ OnlyChanges [.mem, .pc] s t) ∧
      (4096 < s.I.toNat + 3 → t.halted = some (.outOfRangeAccess (firstOutOfRange s.I)) ∧
        OnlyChanges [.mem, .halt] s t)

/-- R184, FX55: registers 0 to X at I and above, those inside memory in either case; then I advances by X + 1, or
the access error is raised with I unchanged. -/
def Obligations.BulkStoreWritesRegisters : Prop :=
  ∀ (x : Nibble) (s : State), s.MemCanonical →
    decodeOp (0xF#4 ++ x ++ 0x55#8) = .ok (.storeRegs x) ∧
    ∃ t bs, exec (.storeRegs x) s = .next t ∧
      bs.length = x.toNat + 1 ∧ (∀ k, k ≤ x.toNat → bs[k]? = some (s.reg (BitVec.ofNat 4 k))) ∧
      StoredFrom s.I.toNat bs s t ∧
      (s.I.toNat + x.toNat < 4096 → t.I.toNat = s.I.toNat + x.toNat + 1 ∧ t.pc = s.nextPc ∧
        OnlyChanges [.mem, .index, .pc] s t) ∧
      (4096 ≤ s.I.toNat + x.toNat → t.halted = some (.outOfRangeAccess (firstOutOfRange s.I)) ∧
        OnlyChanges [.mem, .halt] s t)

/-- R185, FX65: registers 0 to X from I and above, those inside memory in either case; then I advances by X + 1, or
the access error is raised with I unchanged. -/
def Obligations.BulkLoadReadsRegisters : Prop :=
  ∀ (x : Nibble) (s : State),
    decodeOp (0xF#4 ++ x ++ 0x65#8) = .ok (.loadRegs x) ∧
    ∃ t, exec (.loadRegs x) s = .next t ∧
      (∀ q : Nibble, t.reg q =
        if q.toNat ≤ x.toNat ∧ s.I.toNat + q.toNat < 4096 then s.mem.byteAt (s.I.toNat + q.toNat) else s.reg q) ∧
      (s.I.toNat + x.toNat < 4096 → t.I.toNat = s.I.toNat + x.toNat + 1 ∧ t.pc = s.nextPc ∧
        OnlyChanges [.regs, .index, .pc] s t) ∧
      (4096 ≤ s.I.toNat + x.toNat → t.halted = some (.outOfRangeAccess (firstOutOfRange s.I)) ∧
        OnlyChanges [.regs, .halt] s t)

/-- R186: a bulk load from the same I, in any state with the stored memory, restores registers 0 to X; I ends as its
first value plus X + 1 after either. -/
def Obligations.BulkStoreThenLoadRestores : Prop :=
  ∀ (x : Nibble) (s : State), s.MemCanonical → s.I.toNat + x.toNat < 4096 →
    ∃ t, exec (.storeRegs x) s = .next t ∧ t.I.toNat = s.I.toNat + x.toNat + 1 ∧
      ∀ u : State, u.mem = t.mem → u.I = s.I →
        ∃ v, exec (.loadRegs x) u = .next v ∧ v.I.toNat = s.I.toNat + x.toNat + 1 ∧
          ∀ q : Nibble, q.toNat ≤ x.toNat → v.reg q = s.reg q

/-- 20_memory.md R61: a store over the next instruction is what the next fetch reads. -/
def Obligations.StoreIsSeenByNextFetch : Prop :=
  ∀ (x : Nibble) (s : State), s.MemCanonical → s.waiting = false → s.I = s.pc + 2#16 → 1 ≤ x.toNat →
    s.I.toNat + x.toNat < 4096 →
    ∃ t, exec (.storeRegs x) s = .next t ∧ fetch t = .ok (s.reg 0#4 ++ s.reg 1#4)

/-! ## The cycle and its errors (40_execution_cycle.md, 60_exceptions.md) -/

/-- 40_execution_cycle.md R90, R94, R95: when the two bytes at `pc`, high byte first, decode to an instruction, a step
of a machine that is not halted and is given a Cycle is that instruction's meaning; around it the driver's call
is served.  Before a Cycle that is not listed free ticks fall (log 4). No meaning faults (RefusalsAreOutOfDomain). -/
def Obligations.StepRunsDecodedInstruction : Prop :=
  ∀ (s : State) (i : Instr), s.CycleNext → s.halted = none → s.pc.toNat ≤ 4094 →
    decodeOp (s.mem.byteAt s.pc.toNat ++ s.mem.byteAt (s.pc.toNat + 1)) = .ok i →
    OnlyChanges [.delayTimer, .soundTimer] s s.beforeCycle ∧
    (∀ k rest, s.calls = .cycle k :: rest → s.beforeCycle = s ∧ s.keys = k) ∧
    (∀ t, exec i s.beforeCycle = .next t → ∃ u, step s = .next u ∧ OnlyChanges [.inputs] t u ∧
      u.params = t.params ∧ u.calls = t.calls.tail ∧ u.started = true) ∧
    (∀ r, exec i s.beforeCycle = .refused r → step s = .refused r)

/-- 40_execution_cycle.md R91: the fetch faults, the high byte first. -/
def Obligations.FetchFaultsPastMemory : Prop :=
  ∀ s : State, s.CycleNext → s.halted = none → 4095 ≤ s.pc.toNat →
    ∃ t, step s = .next t ∧
      t.halted = some (.outOfRangeAccess (if s.pc.toNat = 4095 then 4096 else s.pc.toNat)) ∧
      OnlyChanges [.halt, .inputs] s.beforeCycle t

/-- 40_execution_cycle.md R93: a word that none of rows 1 to 34 matches, the words of row 35 included, raises
`UnknownInstruction(op)`; no other state changes. -/
def Obligations.UnmatchedWordRaisesUnknownInstruction : Prop :=
  ∀ (s : State) (op : Word), s.CycleNext → s.halted = none → s.pc.toNat ≤ 4094 →
    op = s.mem.byteAt s.pc.toNat ++ s.mem.byteAt (s.pc.toNat + 1) → (∀ r ∈ definedRows, rowMatches op r = false) →
    ∃ t, step s = .next t ∧ t.halted = some (.unknownInstruction op) ∧ OnlyChanges [.halt, .inputs] s.beforeCycle t

/-- 40_execution_cycle.md R96: a halted machine has no step of the engine: it answers the recorded error. -/
def Obligations.HaltedMachineHasNoCycle : Prop :=
  ∀ (s : State) (e : Fault), s.CycleNext → s.halted = some e → step s = .fault e

/-- 50_external_interfaces.md R210, 60_exceptions.md R232: only Reset leaves `Halted`. -/
def Obligations.OnlyResetLeavesHalted : Prop :=
  ∀ (s t : State) (e : Fault), s.halted = some e → step s = .next t →
    t.halted = some e ∨ ∃ rest, s.calls = .reset :: rest

/-- 60_exceptions.md R223, R224, R230: which instruction raises which error, with `pc` left at the instruction. -/
def Obligations.ErrorsRaisedByInstruction : Prop :=
  ∀ (i : Instr) (s t : State) (e : Fault), s.halted = none → exec i s = .next t → t.halted = some e →
    t.pc = s.pc ∧
    ((e = .stackOverflow ∧ ∃ nnn, i = .call nnn) ∨ (e = .stackUnderflow ∧ i = .ret) ∨
     (∃ nnn, e = .unknownInstruction (encode i) ∧ i = .sys nnn) ∨
     (∃ a, e = .outOfRangeAccess a ∧ 4096 ≤ a ∧
       ((∃ x y n, i = .drw x y n) ∨ (∃ x, i = .ldBcd x) ∨ (∃ x, i = .storeRegs x) ∨ ∃ x, i = .loadRegs x)))

/-- 60_exceptions.md R233: no meaning faults, and a refusal is `OutOfDomain` of EX9E, EXA1 or FX29 with
`x[X] > 15`. -/
def Obligations.RefusalsAreOutOfDomain : Prop :=
  ∀ (i : Instr) (s : State), (∀ e, exec i s ≠ .fault e) ∧
    ∀ r, exec i s = .refused r →
      r = .outOfDomain ∧ ∃ x, 15 < (s.reg x).toNat ∧ (i = .skp x ∨ i = .sknp x ∨ i = .ldFont x)

/-! ## What instructions write (10_state.md) -/

/-- 10_state.md R21, R23: an instruction leaves every register alone but its destination and, where it is a flag
output, `x[15]`. -/
def Obligations.RegistersWrittenAsListed : Prop :=
  ∀ (i : Instr) (s t : State) (r : Nibble), exec i s = .next t → mayWriteReg i r = false → t.reg r = s.reg r

/-- 10_state.md R24, R33, R34, R36, 20_memory.md R52: each piece of state is written by its own instructions only. -/
def Obligations.StateWrittenOnlyByItsInstructions : Prop :=
  ∀ (i : Instr) (s t : State), exec i s = .next t → OnlyChanges (partsWritten i) s t

/-! ## The driver's other calls and the ports (50_external_interfaces.md) -/

/-- R204: both timers go down by 1, floor at 0, and nothing else changes.  The model's choices: the Tick as a listed
call that the step serves (log 3), and that it also runs on a halted machine (log 1). -/
def Obligations.TickDecrementsBothTimers : Prop :=
  ∀ (s : State) (rest : List HostCall), s.calls = .tick :: rest →
    ∃ t, step s = .next t ∧ t.DT.toNat = s.DT.toNat - 1 ∧ t.ST.toNat = s.ST.toNat - 1 ∧ t.calls = rest ∧
      t.params = s.params ∧ t.started = s.started ∧ OnlyChanges [.delayTimer, .soundTimer, .inputs] s t

/-- The model's own free ticks (log 4) are that number of ticks of R204, one after another. -/
def Obligations.FreeTicksAreIteratedTicks : Prop :=
  ∀ (n : Nat) (v : Byte), tickTimerTimes n v = Nat.iterate tickTimer n v

/-- R210 with 10_state.md R41: Reset from any state, also a halted one, gives the reset values; the parameters and
the driver's coming calls go on (log 15). -/
def Obligations.ResetCallRestoresResetValues : Prop :=
  ∀ (s : State) (rest : List HostCall), s.calls = .reset :: rest →
    ∃ t, step s = .next t ∧ (∀ a, t.mem.byteAt a = 0#8) ∧ (∀ r, t.reg r = 0#8) ∧ t.I = 0#16 ∧
      t.pc = s.params.entry ∧ t.sp.val = 0 ∧ t.DT = 0#8 ∧ t.ST = 0#8 ∧ (∀ px py, pixelOn t.FB px py = false) ∧
      t.waiting = false ∧ t.halted = none ∧ t.started = false ∧ t.calls = rest ∧ t.params = s.params

/-- 10_state.md R41, 70_reset_and_hazards.md R250: the state after reset, with `pc` at `ENTRY`. -/
def Obligations.ResetStateHoldsResetValues : Prop :=
  (∀ a, State.reset.mem.byteAt a = 0#8) ∧ (∀ r, State.reset.reg r = 0#8) ∧ State.reset.I = 0#16 ∧
  State.reset.pc = State.reset.params.entry ∧ State.reset.sp.val = 0 ∧ State.reset.DT = 0#8 ∧ State.reset.ST = 0#8 ∧
  (∀ px py, pixelOn State.reset.FB px py = false) ∧ State.reset.Running

/-- R208 with 20_memory.md R63: Load before the first Cycle copies the whole image, or fails with no byte written;
after it the model has no move (log 8). -/
def Obligations.LoadCopiesImageOrFails : Prop :=
  ∀ (s : State) (base : Word) (bytes : List Byte) (rest : List HostCall),
    s.MemCanonical → s.calls = .load base bytes :: rest →
    (s.started = false → base.toNat + bytes.length ≤ 4096 →
      ∃ t, step s = .next t ∧ StoredFrom base.toNat bytes s t ∧ t.calls = rest ∧ t.params = s.params ∧
        t.started = false ∧ OnlyChanges [.mem, .inputs] s t) ∧
    (s.started = false → 4096 < base.toNat + bytes.length →
      step s = .fault (.outOfRangeAccess (base.toNat + bytes.length - 1))) ∧
    (s.started = true → step s = .refused .loadAfterStart)

/-- R206, R207, R209: the outputs are functions of the state. -/
def Obligations.OutputPortsShowState : Prop :=
  ∀ s : State, (buzz s = true ↔ s.ST ≠ 0#8) ∧ (∀ px py, pixelOn (snapshot s) px py = pixelOn s.FB px py) ∧
    ∀ e, errorOutput s = some e ↔ s.HaltedBy e

/-- 10_state.md R35: `set_pixel` out of bounds is a no-op, `get_pixel` out of bounds is `InvalidPixelAccess`, and a
pixel set is the pixel got. -/
def Obligations.PixelPortsAtScreenEdge : Prop :=
  ∀ (fb : Screen) (px py qx qy : Nat) (on : Bool),
    (¬(px < 64 ∧ py < 32) → setPixel fb px py on = fb ∧ getPixel fb px py = .error (.invalidPixelAccess px py)) ∧
    (px < 64 ∧ py < 32 → getPixel (setPixel fb px py on) px py = .ok on ∧
      ((qx, qy) ≠ (px, py) → getPixel (setPixel fb px py on) qx qy = getPixel fb qx qy))

/-! ## Invariants -/

/-- Every step keeps memory in its canonical form: 4096 bytes at most, no address listed twice (10_state.md R38). -/
def Obligations.StepKeepsMemoryCanonical : Prop :=
  ∀ s t : State, s.MemCanonical → step s = .next t → t.MemCanonical

/-- 10_state.md R27: every step keeps `pc` at most 0x10FE and the stacked addresses at most 4094. -/
def Obligations.StepKeepsProgramCounterBounded : Prop :=
  ∀ s t : State, s.PcBounded → step s = .next t → t.PcBounded

/-- 40_execution_cycle.md R97: every step keeps a waiting engine at the FX0A it waits in. -/
def Obligations.StepKeepsWaitAtKeyInstruction : Prop :=
  ∀ s t : State, s.WaitsAtKeyInstr → step s = .next t → t.WaitsAtKeyInstr

/-- The three invariants hold right after reset. -/
def Obligations.ResetMeetsInvariants : Prop :=
  State.reset.MemCanonical ∧ State.reset.PcBounded ∧ State.reset.WaitsAtKeyInstr

/-- 70_reset_and_hazards.md R258: at a jump to itself a further Cycle leaves everything unchanged. -/
def Obligations.SelfJumpStaysPut : Prop :=
  ∀ s : State, s.AtSelfJump → cycle s = .next s
end

