-- ==== Sys2Proof/Laws/Memory.lean ====
section
/-! SUPPORT. Memory: read after write, and every memory operation keeps the canonical form. -/

namespace Sys2Proof.Machine

/-! ## Cells -/

/-- Canonical cells from a higher address are canonical from a lower one. -/
theorem cellsFrom_mono {lo lo' : Nat} (hle : lo ≤ lo') {cs : List Host.Cell} (h : cellsFrom lo' cs = true) :
    cellsFrom lo cs = true := by
  cases cs with
  | nil => rfl
  | cons c rest =>
    simp only [cellsFrom, Bool.and_eq_true, decide_eq_true_eq] at h ⊢
    exact ⟨⟨⟨by omega, h.1.1.2⟩, h.1.2⟩, h.2⟩

/-- An address below the first canonical cell is unlisted. -/
theorem cellAt_below {lo a : Nat} {cs : List Host.Cell} (h : cellsFrom lo cs = true) (hlt : a < lo) :
    cellAt a cs = Memory.unlistedByte := by
  induction cs generalizing lo with
  | nil => rfl
  | cons c rest ih =>
    simp only [cellsFrom, Bool.and_eq_true, decide_eq_true_eq] at h
    have hne : a ≠ c.1 := by omega
    simp only [cellAt, if_neg hne]
    exact ih h.2 (by omega)

/-- A write leaves every other address alone. -/
theorem cellAt_putCell_other {a b : Nat} (hne : b ≠ a) (v : Byte) (cs : List Host.Cell) :
    cellAt b (putCell a v cs) = cellAt b cs := by
  induction cs with
  | nil => by_cases hv : v = Memory.unlistedByte <;> simp [putCell, hv, cellAt, hne]
  | cons c rest ih =>
    obtain ⟨k, w⟩ := c
    simp only [putCell]
    split
    · split <;> simp [cellAt, hne]
    · split
      · subst_vars
        split <;> simp [cellAt, hne]
      · simp only [cellAt, ih]

/-- A read of the address written gives the value written. -/
theorem cellAt_putCell_same {lo : Nat} (a : Nat) (v : Byte) {cs : List Host.Cell} (h : cellsFrom lo cs = true) :
    cellAt a (putCell a v cs) = v := by
  induction cs generalizing lo with
  | nil => by_cases hv : v = Memory.unlistedByte <;> simp [putCell, hv, cellAt]
  | cons c rest ih =>
    obtain ⟨k, w⟩ := c
    have hc := h
    simp only [cellsFrom, Bool.and_eq_true, decide_eq_true_eq] at h
    simp only [putCell]
    split
    · rename_i hlt
      split
      · rename_i hv
        have hne : a ≠ k := by omega
        simp only [cellAt, if_neg hne, hv]
        exact cellAt_below h.2 (by omega)
      · simp [cellAt]
    · split
      · rename_i heq
        split
        · rename_i hv
          rw [hv]
          exact cellAt_below h.2 (by omega)
        · simp [cellAt]
      · rename_i hlt hne
        simp only [cellAt, if_neg hne]
        exact ih h.2

/-- A write inside the array keeps the canonical form. -/
theorem putCell_canonical {lo a : Nat} (v : Byte) (hlo : lo ≤ a) (ha : a < 4096) {cs : List Host.Cell}
    (h : cellsFrom lo cs = true) : cellsFrom lo (putCell a v cs) = true := by
  induction cs generalizing lo with
  | nil => by_cases hv : v = Memory.unlistedByte <;> simp [putCell, hv, cellsFrom, hlo, ha]
  | cons c rest ih =>
    obtain ⟨k, w⟩ := c
    have hc := h
    simp only [cellsFrom, Bool.and_eq_true, decide_eq_true_eq] at h
    simp only [putCell]
    split
    · split
      · exact hc
      · rename_i hlt hv
        simp only [cellsFrom, Bool.and_eq_true, decide_eq_true_eq, Bool.not_eq_true', beq_eq_false_iff_ne]
        exact ⟨⟨⟨hlo, ha⟩, hv⟩, ⟨⟨by omega, h.1.1.2⟩, by simpa using h.1.2⟩, h.2⟩
    · split
      · rename_i hlt heq
        subst heq
        split
        · exact cellsFrom_mono (by omega) h.2
        · rename_i hv
          simp only [cellsFrom, Bool.and_eq_true, decide_eq_true_eq, Bool.not_eq_true', beq_eq_false_iff_ne]
          exact ⟨⟨⟨hlo, ha⟩, hv⟩, h.2⟩
      · rename_i hlt hne
        simp only [cellsFrom, Bool.and_eq_true, decide_eq_true_eq]
        exact ⟨⟨⟨h.1.1.1, h.1.1.2⟩, h.1.2⟩, ih (by omega) h.2⟩

/-- An address outside the array is unlisted in a canonical memory. -/
theorem cellAt_above {lo a : Nat} (ha : 4096 ≤ a) {cs : List Host.Cell} (h : cellsFrom lo cs = true) :
    cellAt a cs = Memory.unlistedByte := by
  induction cs generalizing lo with
  | nil => rfl
  | cons c rest ih =>
    simp only [cellsFrom, Bool.and_eq_true, decide_eq_true_eq] at h
    have hne : a ≠ c.1 := by omega
    simp only [cellAt, if_neg hne]
    exact ih h.2

/-- Canonical cells that read the same are the same list. -/
theorem cells_ext {lo : Nat} {cs ds : List Host.Cell} (hc : cellsFrom lo cs = true) (hd : cellsFrom lo ds = true)
    (h : ∀ a, cellAt a cs = cellAt a ds) : cs = ds := by
  induction cs generalizing lo ds with
  | nil =>
    cases ds with
    | nil => rfl
    | cons d rest =>
      simp only [cellsFrom, Bool.and_eq_true, decide_eq_true_eq, Bool.not_eq_true', beq_eq_false_iff_ne] at hd
      exact absurd (by simpa [cellAt] using (h d.1).symm) hd.1.2
  | cons c rest ih =>
    obtain ⟨k, v⟩ := c
    have hcv := hc
    simp only [cellsFrom, Bool.and_eq_true, decide_eq_true_eq, Bool.not_eq_true', beq_eq_false_iff_ne] at hc
    cases ds with
    | nil => exact absurd (by simpa [cellAt] using h k) hc.1.2
    | cons d rest' =>
      obtain ⟨k', v'⟩ := d
      have hdv := hd
      simp only [cellsFrom, Bool.and_eq_true, decide_eq_true_eq, Bool.not_eq_true', beq_eq_false_iff_ne] at hd
      have hk : k = k' := by
        rcases Nat.lt_trichotomy k k' with hlt | heq | hlt
        · have hk := h k
          rw [show cellAt k ((k', v') :: rest') = Memory.unlistedByte by
            simp only [cellAt, if_neg (show k ≠ k' by omega)]
            exact cellAt_below hd.2 (by omega)] at hk
          exact absurd (by simpa [cellAt] using hk) hc.1.2
        · exact heq
        · have hk := h k'
          rw [show cellAt k' ((k, v) :: rest) = Memory.unlistedByte by
            simp only [cellAt, if_neg (show k' ≠ k by omega)]
            exact cellAt_below hc.2 (by omega)] at hk
          exact absurd (by simpa [cellAt] using hk.symm) hd.1.2
      subst hk
      have hv : v = v' := by simpa [cellAt] using h k
      subst hv
      have hrest : rest = rest' := by
        apply ih hc.2 hd.2
        intro a
        by_cases ha : a = k
        · rw [ha, cellAt_below hc.2 (by omega), cellAt_below hd.2 (by omega)]
        · simpa [cellAt, ha] using h a
      rw [hrest]

/-! ## Memory (20_memory.md R51, R52) -/

@[simp] theorem byteAt_setByte_other (m : Memory) {a b : Nat} (hne : b ≠ a) (v : Byte) :
    (m.setByte a v).byteAt b = m.byteAt b := cellAt_putCell_other hne v m.cells

/-- Read after write in a canonical memory. -/
theorem byteAt_setByte {m : Memory} (hm : m.wf = true) (a b : Nat) (v : Byte) :
    (m.setByte a v).byteAt b = if b = a then v else m.byteAt b := by
  by_cases h : b = a
  · subst h
    rw [if_pos rfl]
    exact cellAt_putCell_same b v hm
  · simp [h]

/-- A write inside the array keeps the canonical form. -/
theorem setByte_wf {m : Memory} (hm : m.wf = true) {a : Nat} (ha : a < 4096) (v : Byte) :
    (m.setByte a v).wf = true := putCell_canonical v (Nat.zero_le a) ha hm

/-- Canonical memories that read the same at every address are equal. -/
theorem Memory.ext_byteAt {m n : Memory} (hm : m.wf = true) (hn : n.wf = true)
    (h : ∀ a, m.byteAt a = n.byteAt a) : m = n := by
  cases m; cases n
  exact congrArg Memory.mk (cells_ext hm hn h)

/-- A block write inside the array keeps the canonical form. -/
theorem setBytes_wf {m : Memory} (hm : m.wf = true) {base : Nat} {bytes : List Byte}
    (hfit : base + bytes.length ≤ 4096) : (m.setBytes base bytes).wf = true := by
  induction bytes generalizing m base with
  | nil => exact hm
  | cons v rest ih =>
    simp only [List.length_cons] at hfit
    exact ih (setByte_wf hm (by omega) v) (by omega)

/-- What a block write leaves at every address (20_memory.md R63). -/
theorem byteAt_setBytes {m : Memory} (hm : m.wf = true) {base : Nat} {bytes : List Byte}
    (hfit : base + bytes.length ≤ 4096) (a : Nat) :
    (m.setBytes base bytes).byteAt a =
      if h : base ≤ a ∧ a < base + bytes.length then bytes[a - base]'(by omega) else m.byteAt a := by
  induction bytes generalizing m base with
  | nil => simp [Memory.setBytes, show ¬(base ≤ a ∧ a < base) by omega]
  | cons v rest ih =>
    simp only [List.length_cons] at hfit
    rw [Memory.setBytes, ih (setByte_wf hm (by omega) v) (by omega), byteAt_setByte hm]
    by_cases h1 : base + 1 ≤ a ∧ a < base + 1 + rest.length
    · rw [dif_pos h1, dif_pos (by simp only [List.length_cons]; omega)]
      rw [List.getElem_cons, dif_neg (by omega)]
      congr 1
    · rw [dif_neg h1]
      by_cases h2 : a = base
      · subst h2
        simp
      · rw [dif_neg (by simp only [List.length_cons]; omega), if_neg h2]

end Sys2Proof.Machine
end

