-- ==== Sys2Proof/Laws/State.lean ====
section
/-! SUPPORT. One lemma per field per update of state, so that no proof unfolds a record update. -/

namespace Sys2Proof.Machine

/-! ## State.setMem -/

@[simp] theorem State.setMem_mem (s : State) (m : Memory) : (s.setMem m).mem = m := rfl
@[simp] theorem State.setMem_x (s : State) (m : Memory) : (s.setMem m).x = s.x := rfl
@[simp] theorem State.setMem_I (s : State) (m : Memory) : (s.setMem m).I = s.I := rfl
@[simp] theorem State.setMem_pc (s : State) (m : Memory) : (s.setMem m).pc = s.pc := rfl
@[simp] theorem State.setMem_stack (s : State) (m : Memory) : (s.setMem m).stack = s.stack := rfl
@[simp] theorem State.setMem_sp (s : State) (m : Memory) : (s.setMem m).sp = s.sp := rfl
@[simp] theorem State.setMem_DT (s : State) (m : Memory) : (s.setMem m).DT = s.DT := rfl
@[simp] theorem State.setMem_ST (s : State) (m : Memory) : (s.setMem m).ST = s.ST := rfl
@[simp] theorem State.setMem_FB (s : State) (m : Memory) : (s.setMem m).FB = s.FB := rfl
@[simp] theorem State.setMem_waiting (s : State) (m : Memory) : (s.setMem m).waiting = s.waiting := rfl
@[simp] theorem State.setMem_waitKeys (s : State) (m : Memory) : (s.setMem m).waitKeys = s.waitKeys := rfl
@[simp] theorem State.setMem_halted (s : State) (m : Memory) : (s.setMem m).halted = s.halted := rfl
@[simp] theorem State.setMem_params (s : State) (m : Memory) : (s.setMem m).params = s.params := rfl
@[simp] theorem State.setMem_calls (s : State) (m : Memory) : (s.setMem m).calls = s.calls := rfl
@[simp] theorem State.setMem_openCalls (s : State) (m : Memory) : (s.setMem m).openCalls = s.openCalls := rfl
@[simp] theorem State.setMem_draws (s : State) (m : Memory) : (s.setMem m).draws = s.draws := rfl
@[simp] theorem State.setMem_started (s : State) (m : Memory) : (s.setMem m).started = s.started := rfl
@[simp] theorem State.setMem_reg (s : State) (m : Memory) (q : Nibble) : (s.setMem m).reg q = s.reg q := rfl

/-! ## State.setI -/

@[simp] theorem State.setI_mem (s : State) (v : Word) : (s.setI v).mem = s.mem := rfl
@[simp] theorem State.setI_x (s : State) (v : Word) : (s.setI v).x = s.x := rfl
@[simp] theorem State.setI_I (s : State) (v : Word) : (s.setI v).I = v := rfl
@[simp] theorem State.setI_pc (s : State) (v : Word) : (s.setI v).pc = s.pc := rfl
@[simp] theorem State.setI_stack (s : State) (v : Word) : (s.setI v).stack = s.stack := rfl
@[simp] theorem State.setI_sp (s : State) (v : Word) : (s.setI v).sp = s.sp := rfl
@[simp] theorem State.setI_DT (s : State) (v : Word) : (s.setI v).DT = s.DT := rfl
@[simp] theorem State.setI_ST (s : State) (v : Word) : (s.setI v).ST = s.ST := rfl
@[simp] theorem State.setI_FB (s : State) (v : Word) : (s.setI v).FB = s.FB := rfl
@[simp] theorem State.setI_waiting (s : State) (v : Word) : (s.setI v).waiting = s.waiting := rfl
@[simp] theorem State.setI_waitKeys (s : State) (v : Word) : (s.setI v).waitKeys = s.waitKeys := rfl
@[simp] theorem State.setI_halted (s : State) (v : Word) : (s.setI v).halted = s.halted := rfl
@[simp] theorem State.setI_params (s : State) (v : Word) : (s.setI v).params = s.params := rfl
@[simp] theorem State.setI_calls (s : State) (v : Word) : (s.setI v).calls = s.calls := rfl
@[simp] theorem State.setI_openCalls (s : State) (v : Word) : (s.setI v).openCalls = s.openCalls := rfl
@[simp] theorem State.setI_draws (s : State) (v : Word) : (s.setI v).draws = s.draws := rfl
@[simp] theorem State.setI_started (s : State) (v : Word) : (s.setI v).started = s.started := rfl
@[simp] theorem State.setI_reg (s : State) (v : Word) (q : Nibble) : (s.setI v).reg q = s.reg q := rfl

/-! ## State.setPc -/

@[simp] theorem State.setPc_mem (s : State) (v : Word) : (s.setPc v).mem = s.mem := rfl
@[simp] theorem State.setPc_x (s : State) (v : Word) : (s.setPc v).x = s.x := rfl
@[simp] theorem State.setPc_I (s : State) (v : Word) : (s.setPc v).I = s.I := rfl
@[simp] theorem State.setPc_pc (s : State) (v : Word) : (s.setPc v).pc = v := rfl
@[simp] theorem State.setPc_stack (s : State) (v : Word) : (s.setPc v).stack = s.stack := rfl
@[simp] theorem State.setPc_sp (s : State) (v : Word) : (s.setPc v).sp = s.sp := rfl
@[simp] theorem State.setPc_DT (s : State) (v : Word) : (s.setPc v).DT = s.DT := rfl
@[simp] theorem State.setPc_ST (s : State) (v : Word) : (s.setPc v).ST = s.ST := rfl
@[simp] theorem State.setPc_FB (s : State) (v : Word) : (s.setPc v).FB = s.FB := rfl
@[simp] theorem State.setPc_waiting (s : State) (v : Word) : (s.setPc v).waiting = s.waiting := rfl
@[simp] theorem State.setPc_waitKeys (s : State) (v : Word) : (s.setPc v).waitKeys = s.waitKeys := rfl
@[simp] theorem State.setPc_halted (s : State) (v : Word) : (s.setPc v).halted = s.halted := rfl
@[simp] theorem State.setPc_params (s : State) (v : Word) : (s.setPc v).params = s.params := rfl
@[simp] theorem State.setPc_calls (s : State) (v : Word) : (s.setPc v).calls = s.calls := rfl
@[simp] theorem State.setPc_openCalls (s : State) (v : Word) : (s.setPc v).openCalls = s.openCalls := rfl
@[simp] theorem State.setPc_draws (s : State) (v : Word) : (s.setPc v).draws = s.draws := rfl
@[simp] theorem State.setPc_started (s : State) (v : Word) : (s.setPc v).started = s.started := rfl
@[simp] theorem State.setPc_reg (s : State) (v : Word) (q : Nibble) : (s.setPc v).reg q = s.reg q := rfl

/-! ## State.setDT -/

@[simp] theorem State.setDT_mem (s : State) (v : Byte) : (s.setDT v).mem = s.mem := rfl
@[simp] theorem State.setDT_x (s : State) (v : Byte) : (s.setDT v).x = s.x := rfl
@[simp] theorem State.setDT_I (s : State) (v : Byte) : (s.setDT v).I = s.I := rfl
@[simp] theorem State.setDT_pc (s : State) (v : Byte) : (s.setDT v).pc = s.pc := rfl
@[simp] theorem State.setDT_stack (s : State) (v : Byte) : (s.setDT v).stack = s.stack := rfl
@[simp] theorem State.setDT_sp (s : State) (v : Byte) : (s.setDT v).sp = s.sp := rfl
@[simp] theorem State.setDT_DT (s : State) (v : Byte) : (s.setDT v).DT = v := rfl
@[simp] theorem State.setDT_ST (s : State) (v : Byte) : (s.setDT v).ST = s.ST := rfl
@[simp] theorem State.setDT_FB (s : State) (v : Byte) : (s.setDT v).FB = s.FB := rfl
@[simp] theorem State.setDT_waiting (s : State) (v : Byte) : (s.setDT v).waiting = s.waiting := rfl
@[simp] theorem State.setDT_waitKeys (s : State) (v : Byte) : (s.setDT v).waitKeys = s.waitKeys := rfl
@[simp] theorem State.setDT_halted (s : State) (v : Byte) : (s.setDT v).halted = s.halted := rfl
@[simp] theorem State.setDT_params (s : State) (v : Byte) : (s.setDT v).params = s.params := rfl
@[simp] theorem State.setDT_calls (s : State) (v : Byte) : (s.setDT v).calls = s.calls := rfl
@[simp] theorem State.setDT_openCalls (s : State) (v : Byte) : (s.setDT v).openCalls = s.openCalls := rfl
@[simp] theorem State.setDT_draws (s : State) (v : Byte) : (s.setDT v).draws = s.draws := rfl
@[simp] theorem State.setDT_started (s : State) (v : Byte) : (s.setDT v).started = s.started := rfl
@[simp] theorem State.setDT_reg (s : State) (v : Byte) (q : Nibble) : (s.setDT v).reg q = s.reg q := rfl

/-! ## State.setST -/

@[simp] theorem State.setST_mem (s : State) (v : Byte) : (s.setST v).mem = s.mem := rfl
@[simp] theorem State.setST_x (s : State) (v : Byte) : (s.setST v).x = s.x := rfl
@[simp] theorem State.setST_I (s : State) (v : Byte) : (s.setST v).I = s.I := rfl
@[simp] theorem State.setST_pc (s : State) (v : Byte) : (s.setST v).pc = s.pc := rfl
@[simp] theorem State.setST_stack (s : State) (v : Byte) : (s.setST v).stack = s.stack := rfl
@[simp] theorem State.setST_sp (s : State) (v : Byte) : (s.setST v).sp = s.sp := rfl
@[simp] theorem State.setST_DT (s : State) (v : Byte) : (s.setST v).DT = s.DT := rfl
@[simp] theorem State.setST_ST (s : State) (v : Byte) : (s.setST v).ST = v := rfl
@[simp] theorem State.setST_FB (s : State) (v : Byte) : (s.setST v).FB = s.FB := rfl
@[simp] theorem State.setST_waiting (s : State) (v : Byte) : (s.setST v).waiting = s.waiting := rfl
@[simp] theorem State.setST_waitKeys (s : State) (v : Byte) : (s.setST v).waitKeys = s.waitKeys := rfl
@[simp] theorem State.setST_halted (s : State) (v : Byte) : (s.setST v).halted = s.halted := rfl
@[simp] theorem State.setST_params (s : State) (v : Byte) : (s.setST v).params = s.params := rfl
@[simp] theorem State.setST_calls (s : State) (v : Byte) : (s.setST v).calls = s.calls := rfl
@[simp] theorem State.setST_openCalls (s : State) (v : Byte) : (s.setST v).openCalls = s.openCalls := rfl
@[simp] theorem State.setST_draws (s : State) (v : Byte) : (s.setST v).draws = s.draws := rfl
@[simp] theorem State.setST_started (s : State) (v : Byte) : (s.setST v).started = s.started := rfl
@[simp] theorem State.setST_reg (s : State) (v : Byte) (q : Nibble) : (s.setST v).reg q = s.reg q := rfl

/-! ## State.setFB -/

@[simp] theorem State.setFB_mem (s : State) (fb : Screen) : (s.setFB fb).mem = s.mem := rfl
@[simp] theorem State.setFB_x (s : State) (fb : Screen) : (s.setFB fb).x = s.x := rfl
@[simp] theorem State.setFB_I (s : State) (fb : Screen) : (s.setFB fb).I = s.I := rfl
@[simp] theorem State.setFB_pc (s : State) (fb : Screen) : (s.setFB fb).pc = s.pc := rfl
@[simp] theorem State.setFB_stack (s : State) (fb : Screen) : (s.setFB fb).stack = s.stack := rfl
@[simp] theorem State.setFB_sp (s : State) (fb : Screen) : (s.setFB fb).sp = s.sp := rfl
@[simp] theorem State.setFB_DT (s : State) (fb : Screen) : (s.setFB fb).DT = s.DT := rfl
@[simp] theorem State.setFB_ST (s : State) (fb : Screen) : (s.setFB fb).ST = s.ST := rfl
@[simp] theorem State.setFB_FB (s : State) (fb : Screen) : (s.setFB fb).FB = fb := rfl
@[simp] theorem State.setFB_waiting (s : State) (fb : Screen) : (s.setFB fb).waiting = s.waiting := rfl
@[simp] theorem State.setFB_waitKeys (s : State) (fb : Screen) : (s.setFB fb).waitKeys = s.waitKeys := rfl
@[simp] theorem State.setFB_halted (s : State) (fb : Screen) : (s.setFB fb).halted = s.halted := rfl
@[simp] theorem State.setFB_params (s : State) (fb : Screen) : (s.setFB fb).params = s.params := rfl
@[simp] theorem State.setFB_calls (s : State) (fb : Screen) : (s.setFB fb).calls = s.calls := rfl
@[simp] theorem State.setFB_openCalls (s : State) (fb : Screen) : (s.setFB fb).openCalls = s.openCalls := rfl
@[simp] theorem State.setFB_draws (s : State) (fb : Screen) : (s.setFB fb).draws = s.draws := rfl
@[simp] theorem State.setFB_started (s : State) (fb : Screen) : (s.setFB fb).started = s.started := rfl
@[simp] theorem State.setFB_reg (s : State) (fb : Screen) (q : Nibble) : (s.setFB fb).reg q = s.reg q := rfl

/-! ## State.setReg -/

@[simp] theorem State.setReg_mem (s : State) (r : Nibble) (v : Byte) : (s.setReg r v).mem = s.mem := rfl
@[simp] theorem State.setReg_x (s : State) (r : Nibble) (v : Byte) : (s.setReg r v).x = s.x.set r.toNat v r.isLt := rfl
@[simp] theorem State.setReg_I (s : State) (r : Nibble) (v : Byte) : (s.setReg r v).I = s.I := rfl
@[simp] theorem State.setReg_pc (s : State) (r : Nibble) (v : Byte) : (s.setReg r v).pc = s.pc := rfl
@[simp] theorem State.setReg_stack (s : State) (r : Nibble) (v : Byte) : (s.setReg r v).stack = s.stack := rfl
@[simp] theorem State.setReg_sp (s : State) (r : Nibble) (v : Byte) : (s.setReg r v).sp = s.sp := rfl
@[simp] theorem State.setReg_DT (s : State) (r : Nibble) (v : Byte) : (s.setReg r v).DT = s.DT := rfl
@[simp] theorem State.setReg_ST (s : State) (r : Nibble) (v : Byte) : (s.setReg r v).ST = s.ST := rfl
@[simp] theorem State.setReg_FB (s : State) (r : Nibble) (v : Byte) : (s.setReg r v).FB = s.FB := rfl
@[simp] theorem State.setReg_waiting (s : State) (r : Nibble) (v : Byte) : (s.setReg r v).waiting = s.waiting := rfl
@[simp] theorem State.setReg_waitKeys (s : State) (r : Nibble) (v : Byte) : (s.setReg r v).waitKeys = s.waitKeys := rfl
@[simp] theorem State.setReg_halted (s : State) (r : Nibble) (v : Byte) : (s.setReg r v).halted = s.halted := rfl
@[simp] theorem State.setReg_params (s : State) (r : Nibble) (v : Byte) : (s.setReg r v).params = s.params := rfl
@[simp] theorem State.setReg_calls (s : State) (r : Nibble) (v : Byte) : (s.setReg r v).calls = s.calls := rfl
@[simp] theorem State.setReg_openCalls (s : State) (r : Nibble) (v : Byte) : (s.setReg r v).openCalls = s.openCalls := rfl
@[simp] theorem State.setReg_draws (s : State) (r : Nibble) (v : Byte) : (s.setReg r v).draws = s.draws := rfl
@[simp] theorem State.setReg_started (s : State) (r : Nibble) (v : Byte) : (s.setReg r v).started = s.started := rfl

/-! ## State.setLatch -/

@[simp] theorem State.setLatch_mem (s : State) (w : Bool) (k : Word) : (s.setLatch w k).mem = s.mem := rfl
@[simp] theorem State.setLatch_x (s : State) (w : Bool) (k : Word) : (s.setLatch w k).x = s.x := rfl
@[simp] theorem State.setLatch_I (s : State) (w : Bool) (k : Word) : (s.setLatch w k).I = s.I := rfl
@[simp] theorem State.setLatch_pc (s : State) (w : Bool) (k : Word) : (s.setLatch w k).pc = s.pc := rfl
@[simp] theorem State.setLatch_stack (s : State) (w : Bool) (k : Word) : (s.setLatch w k).stack = s.stack := rfl
@[simp] theorem State.setLatch_sp (s : State) (w : Bool) (k : Word) : (s.setLatch w k).sp = s.sp := rfl
@[simp] theorem State.setLatch_DT (s : State) (w : Bool) (k : Word) : (s.setLatch w k).DT = s.DT := rfl
@[simp] theorem State.setLatch_ST (s : State) (w : Bool) (k : Word) : (s.setLatch w k).ST = s.ST := rfl
@[simp] theorem State.setLatch_FB (s : State) (w : Bool) (k : Word) : (s.setLatch w k).FB = s.FB := rfl
@[simp] theorem State.setLatch_waiting (s : State) (w : Bool) (k : Word) : (s.setLatch w k).waiting = w := rfl
@[simp] theorem State.setLatch_waitKeys (s : State) (w : Bool) (k : Word) : (s.setLatch w k).waitKeys = k := rfl
@[simp] theorem State.setLatch_halted (s : State) (w : Bool) (k : Word) : (s.setLatch w k).halted = s.halted := rfl
@[simp] theorem State.setLatch_params (s : State) (w : Bool) (k : Word) : (s.setLatch w k).params = s.params := rfl
@[simp] theorem State.setLatch_calls (s : State) (w : Bool) (k : Word) : (s.setLatch w k).calls = s.calls := rfl
@[simp] theorem State.setLatch_openCalls (s : State) (w : Bool) (k : Word) : (s.setLatch w k).openCalls = s.openCalls := rfl
@[simp] theorem State.setLatch_draws (s : State) (w : Bool) (k : Word) : (s.setLatch w k).draws = s.draws := rfl
@[simp] theorem State.setLatch_started (s : State) (w : Bool) (k : Word) : (s.setLatch w k).started = s.started := rfl
@[simp] theorem State.setLatch_reg (s : State) (w : Bool) (k : Word) (q : Nibble) : (s.setLatch w k).reg q = s.reg q := rfl

/-! ## State.setDraws -/

@[simp] theorem State.setDraws_mem (s : State) (n : Nat) : (s.setDraws n).mem = s.mem := rfl
@[simp] theorem State.setDraws_x (s : State) (n : Nat) : (s.setDraws n).x = s.x := rfl
@[simp] theorem State.setDraws_I (s : State) (n : Nat) : (s.setDraws n).I = s.I := rfl
@[simp] theorem State.setDraws_pc (s : State) (n : Nat) : (s.setDraws n).pc = s.pc := rfl
@[simp] theorem State.setDraws_stack (s : State) (n : Nat) : (s.setDraws n).stack = s.stack := rfl
@[simp] theorem State.setDraws_sp (s : State) (n : Nat) : (s.setDraws n).sp = s.sp := rfl
@[simp] theorem State.setDraws_DT (s : State) (n : Nat) : (s.setDraws n).DT = s.DT := rfl
@[simp] theorem State.setDraws_ST (s : State) (n : Nat) : (s.setDraws n).ST = s.ST := rfl
@[simp] theorem State.setDraws_FB (s : State) (n : Nat) : (s.setDraws n).FB = s.FB := rfl
@[simp] theorem State.setDraws_waiting (s : State) (n : Nat) : (s.setDraws n).waiting = s.waiting := rfl
@[simp] theorem State.setDraws_waitKeys (s : State) (n : Nat) : (s.setDraws n).waitKeys = s.waitKeys := rfl
@[simp] theorem State.setDraws_halted (s : State) (n : Nat) : (s.setDraws n).halted = s.halted := rfl
@[simp] theorem State.setDraws_params (s : State) (n : Nat) : (s.setDraws n).params = s.params := rfl
@[simp] theorem State.setDraws_calls (s : State) (n : Nat) : (s.setDraws n).calls = s.calls := rfl
@[simp] theorem State.setDraws_openCalls (s : State) (n : Nat) : (s.setDraws n).openCalls = s.openCalls := rfl
@[simp] theorem State.setDraws_draws (s : State) (n : Nat) : (s.setDraws n).draws = n := rfl
@[simp] theorem State.setDraws_started (s : State) (n : Nat) : (s.setDraws n).started = s.started := rfl
@[simp] theorem State.setDraws_reg (s : State) (n : Nat) (q : Nibble) : (s.setDraws n).reg q = s.reg q := rfl

/-! ## takeError -/

@[simp] theorem takeError_mem (e : Fault) (s : State) : (takeError e s).mem = s.mem := rfl
@[simp] theorem takeError_x (e : Fault) (s : State) : (takeError e s).x = s.x := rfl
@[simp] theorem takeError_I (e : Fault) (s : State) : (takeError e s).I = s.I := rfl
@[simp] theorem takeError_pc (e : Fault) (s : State) : (takeError e s).pc = s.pc := rfl
@[simp] theorem takeError_stack (e : Fault) (s : State) : (takeError e s).stack = s.stack := rfl
@[simp] theorem takeError_sp (e : Fault) (s : State) : (takeError e s).sp = s.sp := rfl
@[simp] theorem takeError_DT (e : Fault) (s : State) : (takeError e s).DT = s.DT := rfl
@[simp] theorem takeError_ST (e : Fault) (s : State) : (takeError e s).ST = s.ST := rfl
@[simp] theorem takeError_FB (e : Fault) (s : State) : (takeError e s).FB = s.FB := rfl
@[simp] theorem takeError_waiting (e : Fault) (s : State) : (takeError e s).waiting = s.waiting := rfl
@[simp] theorem takeError_waitKeys (e : Fault) (s : State) : (takeError e s).waitKeys = s.waitKeys := rfl
@[simp] theorem takeError_halted (e : Fault) (s : State) : (takeError e s).halted = some e := rfl
@[simp] theorem takeError_params (e : Fault) (s : State) : (takeError e s).params = s.params := rfl
@[simp] theorem takeError_calls (e : Fault) (s : State) : (takeError e s).calls = s.calls := rfl
@[simp] theorem takeError_openCalls (e : Fault) (s : State) : (takeError e s).openCalls = s.openCalls := rfl
@[simp] theorem takeError_draws (e : Fault) (s : State) : (takeError e s).draws = s.draws := rfl
@[simp] theorem takeError_started (e : Fault) (s : State) : (takeError e s).started = s.started := rfl
@[simp] theorem takeError_reg (e : Fault) (s : State) (q : Nibble) : (takeError e s).reg q = s.reg q := rfl

/-! ## autoIncrement and skipIf change `pc` only -/

@[simp] theorem autoIncrement_mem (s : State) : (autoIncrement s).mem = s.mem := by
  unfold autoIncrement; split <;> rfl
@[simp] theorem autoIncrement_x (s : State) : (autoIncrement s).x = s.x := by
  unfold autoIncrement; split <;> rfl
@[simp] theorem autoIncrement_I (s : State) : (autoIncrement s).I = s.I := by
  unfold autoIncrement; split <;> rfl
@[simp] theorem autoIncrement_stack (s : State) : (autoIncrement s).stack = s.stack := by
  unfold autoIncrement; split <;> rfl
@[simp] theorem autoIncrement_sp (s : State) : (autoIncrement s).sp = s.sp := by
  unfold autoIncrement; split <;> rfl
@[simp] theorem autoIncrement_DT (s : State) : (autoIncrement s).DT = s.DT := by
  unfold autoIncrement; split <;> rfl
@[simp] theorem autoIncrement_ST (s : State) : (autoIncrement s).ST = s.ST := by
  unfold autoIncrement; split <;> rfl
@[simp] theorem autoIncrement_FB (s : State) : (autoIncrement s).FB = s.FB := by
  unfold autoIncrement; split <;> rfl
@[simp] theorem autoIncrement_waiting (s : State) : (autoIncrement s).waiting = s.waiting := by
  unfold autoIncrement; split <;> rfl
@[simp] theorem autoIncrement_waitKeys (s : State) : (autoIncrement s).waitKeys = s.waitKeys := by
  unfold autoIncrement; split <;> rfl
@[simp] theorem autoIncrement_halted (s : State) : (autoIncrement s).halted = s.halted := by
  unfold autoIncrement; split <;> rfl
@[simp] theorem autoIncrement_params (s : State) : (autoIncrement s).params = s.params := by
  unfold autoIncrement; split <;> rfl
@[simp] theorem autoIncrement_calls (s : State) : (autoIncrement s).calls = s.calls := by
  unfold autoIncrement; split <;> rfl
@[simp] theorem autoIncrement_openCalls (s : State) : (autoIncrement s).openCalls = s.openCalls := by
  unfold autoIncrement; split <;> rfl
@[simp] theorem autoIncrement_draws (s : State) : (autoIncrement s).draws = s.draws := by
  unfold autoIncrement; split <;> rfl
@[simp] theorem autoIncrement_started (s : State) : (autoIncrement s).started = s.started := by
  unfold autoIncrement; split <;> rfl
@[simp] theorem autoIncrement_reg (s : State) (q : Nibble) : (autoIncrement s).reg q = s.reg q := by
  unfold autoIncrement; split <;> rfl

@[simp] theorem skipIf_mem (c : Bool) (s : State) : (skipIf c s).mem = s.mem := by
  unfold skipIf; split <;> rfl
@[simp] theorem skipIf_x (c : Bool) (s : State) : (skipIf c s).x = s.x := by
  unfold skipIf; split <;> rfl
@[simp] theorem skipIf_I (c : Bool) (s : State) : (skipIf c s).I = s.I := by
  unfold skipIf; split <;> rfl
@[simp] theorem skipIf_stack (c : Bool) (s : State) : (skipIf c s).stack = s.stack := by
  unfold skipIf; split <;> rfl
@[simp] theorem skipIf_sp (c : Bool) (s : State) : (skipIf c s).sp = s.sp := by
  unfold skipIf; split <;> rfl
@[simp] theorem skipIf_DT (c : Bool) (s : State) : (skipIf c s).DT = s.DT := by
  unfold skipIf; split <;> rfl
@[simp] theorem skipIf_ST (c : Bool) (s : State) : (skipIf c s).ST = s.ST := by
  unfold skipIf; split <;> rfl
@[simp] theorem skipIf_FB (c : Bool) (s : State) : (skipIf c s).FB = s.FB := by
  unfold skipIf; split <;> rfl
@[simp] theorem skipIf_waiting (c : Bool) (s : State) : (skipIf c s).waiting = s.waiting := by
  unfold skipIf; split <;> rfl
@[simp] theorem skipIf_waitKeys (c : Bool) (s : State) : (skipIf c s).waitKeys = s.waitKeys := by
  unfold skipIf; split <;> rfl
@[simp] theorem skipIf_halted (c : Bool) (s : State) : (skipIf c s).halted = s.halted := by
  unfold skipIf; split <;> rfl
@[simp] theorem skipIf_params (c : Bool) (s : State) : (skipIf c s).params = s.params := by
  unfold skipIf; split <;> rfl
@[simp] theorem skipIf_calls (c : Bool) (s : State) : (skipIf c s).calls = s.calls := by
  unfold skipIf; split <;> rfl
@[simp] theorem skipIf_openCalls (c : Bool) (s : State) : (skipIf c s).openCalls = s.openCalls := by
  unfold skipIf; split <;> rfl
@[simp] theorem skipIf_draws (c : Bool) (s : State) : (skipIf c s).draws = s.draws := by
  unfold skipIf; split <;> rfl
@[simp] theorem skipIf_started (c : Bool) (s : State) : (skipIf c s).started = s.started := by
  unfold skipIf; split <;> rfl
@[simp] theorem skipIf_reg (c : Bool) (s : State) (q : Nibble) : (skipIf c s).reg q = s.reg q := by
  unfold skipIf; split <;> rfl

/-- The auto-increment's `pc` (40_execution_cycle.md R94). -/
@[simp] theorem autoIncrement_pc (s : State) :
    (autoIncrement s).pc = bif s.waiting then s.pc else s.pc + 2#16 := by
  unfold autoIncrement; cases s.waiting <;> rfl

/-- A skip handler's `pc` (42_control_transfer.md R131). -/
@[simp] theorem skipIf_pc (c : Bool) (s : State) : (skipIf c s).pc = bif c then s.pc + 2#16 else s.pc := by
  cases c <;> rfl

/-! ## General registers -/

/-- Reading a register after a write of one. -/
@[simp] theorem setReg_reg (s : State) (r q : Nibble) (v : Byte) :
    (s.setReg r v).reg q = if q = r then v else s.reg q := by
  simp only [State.setReg, State.reg, Vector.getElem_set]
  by_cases h : q = r
  · simp [h]
  · have hne : r.toNat ≠ q.toNat := fun e => h (BitVec.eq_of_toNat_eq e.symm)
    simp [h, hne]

/-- Two states with the same register values have the same register file. -/
theorem x_eq_of_reg_eq {s t : State} (h : ∀ r, t.reg r = s.reg r) : t.x = s.x := by
  apply Vector.ext
  intro k hk
  have := h (BitVec.ofNat 4 k)
  simp only [State.reg, BitVec.toNat_ofNat] at this
  have hmod : k % 16 = k := Nat.mod_eq_of_lt hk
  simpa [hmod] using this

/-- `x[15]` after a result and its flag: the flag (10_state.md R22). -/
@[simp] theorem setResultThenFlag_reg (s : State) (x q : Nibble) (v : Byte) (f : Bool) :
    (setResultThenFlag s x v f).reg q =
      if q = flagReg then flagByte f else if q = x then v else s.reg q := by
  simp [setResultThenFlag]

@[simp] theorem setResultThenFlag_mem (s : State) (x : Nibble) (v : Byte) (f : Bool) :
    (setResultThenFlag s x v f).mem = s.mem := rfl
@[simp] theorem setResultThenFlag_I (s : State) (x : Nibble) (v : Byte) (f : Bool) :
    (setResultThenFlag s x v f).I = s.I := rfl
@[simp] theorem setResultThenFlag_pc (s : State) (x : Nibble) (v : Byte) (f : Bool) :
    (setResultThenFlag s x v f).pc = s.pc := rfl
@[simp] theorem setResultThenFlag_stack (s : State) (x : Nibble) (v : Byte) (f : Bool) :
    (setResultThenFlag s x v f).stack = s.stack := rfl
@[simp] theorem setResultThenFlag_sp (s : State) (x : Nibble) (v : Byte) (f : Bool) :
    (setResultThenFlag s x v f).sp = s.sp := rfl
@[simp] theorem setResultThenFlag_DT (s : State) (x : Nibble) (v : Byte) (f : Bool) :
    (setResultThenFlag s x v f).DT = s.DT := rfl
@[simp] theorem setResultThenFlag_ST (s : State) (x : Nibble) (v : Byte) (f : Bool) :
    (setResultThenFlag s x v f).ST = s.ST := rfl
@[simp] theorem setResultThenFlag_FB (s : State) (x : Nibble) (v : Byte) (f : Bool) :
    (setResultThenFlag s x v f).FB = s.FB := rfl
@[simp] theorem setResultThenFlag_waiting (s : State) (x : Nibble) (v : Byte) (f : Bool) :
    (setResultThenFlag s x v f).waiting = s.waiting := rfl
@[simp] theorem setResultThenFlag_waitKeys (s : State) (x : Nibble) (v : Byte) (f : Bool) :
    (setResultThenFlag s x v f).waitKeys = s.waitKeys := rfl
@[simp] theorem setResultThenFlag_halted (s : State) (x : Nibble) (v : Byte) (f : Bool) :
    (setResultThenFlag s x v f).halted = s.halted := rfl
@[simp] theorem setResultThenFlag_params (s : State) (x : Nibble) (v : Byte) (f : Bool) :
    (setResultThenFlag s x v f).params = s.params := rfl
@[simp] theorem setResultThenFlag_calls (s : State) (x : Nibble) (v : Byte) (f : Bool) :
    (setResultThenFlag s x v f).calls = s.calls := rfl
@[simp] theorem setResultThenFlag_openCalls (s : State) (x : Nibble) (v : Byte) (f : Bool) :
    (setResultThenFlag s x v f).openCalls = s.openCalls := rfl
@[simp] theorem setResultThenFlag_draws (s : State) (x : Nibble) (v : Byte) (f : Bool) :
    (setResultThenFlag s x v f).draws = s.draws := rfl
@[simp] theorem setResultThenFlag_started (s : State) (x : Nibble) (v : Byte) (f : Bool) :
    (setResultThenFlag s x v f).started = s.started := rfl

/-! ## finish (30_encoding.md R75, 40_execution_cycle.md R94, R95) -/

@[simp] theorem finish_true_done (s : State) : finish true (.done s) = .next (autoIncrement s) := rfl
@[simp] theorem finish_false_done (s : State) : finish false (.done s) = .next s := rfl
@[simp] theorem finish_raise (ai : Bool) (e : Fault) (s : State) : finish ai (.raise e s) = .next (takeError e s) := rfl

@[simp] theorem andThen_done (s : State) (f : State → State) : (Handled.done s).andThen f = .done (f s) := rfl
@[simp] theorem andThen_raise (e : Fault) (s : State) (f : State → State) :
    (Handled.raise e s).andThen f = .raise e s := rfl

/-- Everything the end of a step can do. -/
theorem finish_cases (ai : Bool) (h : Handled) :
    (∃ s, h = .done s ∧ finish ai h = .next (if ai then autoIncrement s else s)) ∨
      (∃ e s, h = .raise e s ∧ finish ai h = .next (takeError e s)) := by
  cases h with
  | done s => exact .inl ⟨s, rfl, rfl⟩
  | raise e s => exact .inr ⟨e, s, rfl, rfl⟩

end Sys2Proof.Machine
end

