-- ==== Sys2Proof/Laws/Access.lean ====
section
/-! SUPPORT. One spec lemma per memory access operation: a single access, a block store, a block load, fetch. -/

namespace Sys2Proof.Machine

/-! ## Single accesses (20_memory.md R51, R52) -/

theorem memRead_ok {s : State} {addr : Word} (h : addr.toNat < 4096) :
    memRead s addr = .ok (s.mem.byteAt addr.toNat) := by
  unfold memRead
  rw [if_neg (by omega)]

theorem memRead_error {s : State} {addr : Word} (h : 4096 ≤ addr.toNat) :
    memRead s addr = .error (.outOfRangeAccess addr.toNat) := by
  unfold memRead
  rw [if_pos h]

theorem memWrite_done {s : State} {addr : Word} (h : addr.toNat < 4096) (v : Byte) :
    memWrite s addr v = .done (s.setMem (s.mem.setByte addr.toNat v)) := by
  unfold memWrite
  rw [if_neg (by omega)]

theorem memWrite_raise {s : State} {addr : Word} (h : 4096 ≤ addr.toNat) (v : Byte) :
    memWrite s addr v = .raise (.outOfRangeAccess addr.toNat) s := by
  unfold memWrite
  rw [if_pos h]

/-- The next address of a block inside the array does not wrap (20_memory.md R56). -/
theorem toNat_succ {addr : Word} (h : addr.toNat < 4096) : (addr + 1#16).toNat = addr.toNat + 1 := by
  rw [BitVec.toNat_add]
  simp
  omega

theorem firstOutOfRange_succ {addr : Word} (h : addr.toNat < 4096) :
    firstOutOfRange (addr + 1#16) = firstOutOfRange addr := by
  unfold firstOutOfRange
  rw [toNat_succ h]
  omega

theorem firstOutOfRange_self {addr : Word} (h : 4096 ≤ addr.toNat) : firstOutOfRange addr = addr.toNat := by
  unfold firstOutOfRange
  omega

/-! ## Block stores (46_timers_bcd_bulk.md R183, R184) -/

/-- A block that fits is stored whole. -/
theorem storeBytes_done {addr : Word} {bs : List Byte} (hfit : addr.toNat + bs.length ≤ 4096) (s : State) :
    storeBytes addr bs s = .done (s.setMem (s.mem.setBytes addr.toNat bs)) := by
  induction bs generalizing addr s with
  | nil => rfl
  | cons v rest ih =>
    simp only [List.length_cons] at hfit
    have hlt : addr.toNat < 4096 := by omega
    rw [storeBytes, memWrite_done hlt]
    simp only
    rw [ih (by rw [toNat_succ hlt]; omega), toNat_succ hlt]
    rfl

/-- A block that does not fit is stored up to the end of memory, then the access error is raised. -/
theorem storeBytes_raise {addr : Word} {bs : List Byte} (hne : bs ≠ []) (hover : 4096 < addr.toNat + bs.length)
    (s : State) :
    storeBytes addr bs s =
      .raise (.outOfRangeAccess (firstOutOfRange addr))
        (s.setMem (s.mem.setBytes addr.toNat (bs.take (4096 - addr.toNat)))) := by
  induction bs generalizing addr s with
  | nil => exact absurd rfl hne
  | cons v rest ih =>
    simp only [List.length_cons] at hover
    by_cases hlt : addr.toNat < 4096
    · rw [storeBytes, memWrite_done hlt]
      simp only
      have hrest : rest ≠ [] := by
        rintro rfl
        simp only [List.length_nil] at hover
        omega
      rw [ih hrest (by rw [toNat_succ hlt]; omega), toNat_succ hlt, firstOutOfRange_succ hlt,
        show 4096 - addr.toNat = (4096 - (addr.toNat + 1)) + 1 by omega, List.take_succ_cons]
      rfl
    · rw [storeBytes, memWrite_raise (by omega), firstOutOfRange_self (by omega),
        show 4096 - addr.toNat = 0 by omega]
      rfl

/-- Everything a block store can do: it changes memory only. -/
theorem storeBytes_cases (addr : Word) (bs : List Byte) (s : State) :
    ∃ m, storeBytes addr bs s = .done (s.setMem m) ∨
      ∃ a, storeBytes addr bs s = .raise (.outOfRangeAccess a) (s.setMem m) := by
  by_cases hnil : bs = []
  · subst hnil
    exact ⟨s.mem, .inl rfl⟩
  by_cases hfit : addr.toNat + bs.length ≤ 4096
  · exact ⟨_, .inl (storeBytes_done hfit s)⟩
  · exact ⟨_, .inr ⟨_, storeBytes_raise hnil (by omega) s⟩⟩

/-- A block store keeps memory canonical. -/
theorem storeBytes_wf {addr : Word} {bs : List Byte} {s : State} (hm : s.mem.wf = true) :
    (∀ t, storeBytes addr bs s = .done t → t.mem.wf = true) ∧
      (∀ e t, storeBytes addr bs s = .raise e t → t.mem.wf = true) := by
  by_cases hnil : bs = []
  · subst hnil
    constructor
    · rintro t h
      cases h
      exact hm
    · rintro e t h
      cases h
  by_cases hfit : addr.toNat + bs.length ≤ 4096
  · rw [storeBytes_done hfit s]
    exact ⟨fun t h => by cases h; exact setBytes_wf hm hfit, fun e t h => by cases h⟩
  · rw [storeBytes_raise hnil (by omega) s]
    refine ⟨fun t h => (by cases h), fun e t h => ?_⟩
    cases h
    by_cases ha : addr.toNat < 4096
    · exact setBytes_wf hm (by simp only [List.length_take]; omega)
    · rw [show 4096 - addr.toNat = 0 by omega]
      exact hm

/-! ## Block loads (46_timers_bcd_bulk.md R185) -/

/-- The register k places after r. -/
theorem toNat_add_one {r : Nibble} (h : r.toNat + 1 < 16) : (r + 1#4).toNat = r.toNat + 1 := by
  rw [BitVec.toNat_add]
  simp
  omega

/-- A block that fits is loaded whole, into its registers only. -/
theorem loadBytes_done {addr : Word} {r : Nibble} {n : Nat} (hfit : addr.toNat + n ≤ 4096)
    (hr : r.toNat + n ≤ 16) (s : State) :
    ∃ t, loadBytes addr r n s = .done t ∧ t = { s with x := t.x } ∧
      ∀ q : Nibble, t.reg q =
        if r.toNat ≤ q.toNat ∧ q.toNat < r.toNat + n then s.mem.byteAt (addr.toNat + (q.toNat - r.toNat))
        else s.reg q := by
  induction n generalizing addr r s with
  | zero => exact ⟨s, rfl, rfl, fun q => by rw [if_neg (by omega)]⟩
  | succ n ih =>
    have hlt : addr.toNat < 4096 := by omega
    rw [loadBytes, memRead_ok hlt]
    simp only
    by_cases hn : n = 0
    · subst hn
      refine ⟨_, rfl, rfl, fun q => ?_⟩
      rw [setReg_reg]
      by_cases hq : q = r
      · subst hq
        simp
      · have : q.toNat ≠ r.toNat := fun e => hq (BitVec.eq_of_toNat_eq e)
        rw [if_neg hq, if_neg (by omega)]
    · have h1 := toNat_add_one (r := r) (by omega)
      obtain ⟨t, ht, hx, hreg⟩ := ih (addr := addr + 1#16) (r := r + 1#4) (by rw [toNat_succ hlt]; omega)
        (by omega) (s.setReg r (s.mem.byteAt addr.toNat))
      refine ⟨t, ht, hx, fun q => ?_⟩
      rw [hreg q, h1, toNat_succ hlt, setReg_reg, State.setReg_mem]
      by_cases hq : q = r
      · subst hq
        rw [if_neg (by omega), if_pos rfl, if_pos (by omega)]
        simp
      · have : q.toNat ≠ r.toNat := fun e => hq (BitVec.eq_of_toNat_eq e)
        by_cases hin : r.toNat + 1 ≤ q.toNat ∧ q.toNat < r.toNat + 1 + n
        · rw [if_pos hin, if_pos (by omega)]
          congr 1
          omega
        · rw [if_neg hin, if_neg hq, if_neg (by omega)]

/-- A block that does not fit is loaded up to the end of memory, then the access error is raised. -/
theorem loadBytes_raise {addr : Word} {r : Nibble} {n : Nat} (hn : 0 < n) (hover : 4096 < addr.toNat + n)
    (hr : r.toNat + n ≤ 16) (s : State) :
    ∃ t, loadBytes addr r n s = .raise (.outOfRangeAccess (firstOutOfRange addr)) t ∧ t = { s with x := t.x } ∧
      ∀ q : Nibble, t.reg q =
        if r.toNat ≤ q.toNat ∧ q.toNat < r.toNat + (4096 - addr.toNat) then
          s.mem.byteAt (addr.toNat + (q.toNat - r.toNat))
        else s.reg q := by
  induction n generalizing addr r s with
  | zero => omega
  | succ n ih =>
    by_cases hlt : addr.toNat < 4096
    · rw [loadBytes, memRead_ok hlt]
      simp only
      have h1 := toNat_add_one (r := r) (by omega)
      obtain ⟨t, ht, hx, hreg⟩ := ih (addr := addr + 1#16) (r := r + 1#4) (by omega)
        (by rw [toNat_succ hlt]; omega) (by omega) (s.setReg r (s.mem.byteAt addr.toNat))
      refine ⟨t, by rw [ht, firstOutOfRange_succ hlt], hx, fun q => ?_⟩
      rw [hreg q, h1, toNat_succ hlt, setReg_reg, State.setReg_mem]
      by_cases hq : q = r
      · subst hq
        rw [if_neg (by omega), if_pos rfl, if_pos (by omega)]
        simp
      · have : q.toNat ≠ r.toNat := fun e => hq (BitVec.eq_of_toNat_eq e)
        by_cases hin : r.toNat + 1 ≤ q.toNat ∧ q.toNat < r.toNat + 1 + (4096 - (addr.toNat + 1))
        · rw [if_pos hin, if_pos (by omega)]
          congr 1
          omega
        · rw [if_neg hin, if_neg hq, if_neg (by omega)]
    · rw [loadBytes, memRead_error (by omega)]
      exact ⟨s, by rw [firstOutOfRange_self (by omega)], rfl, fun q => by rw [if_neg (by omega)]⟩

/-- Everything a block load can do: it changes registers only. -/
theorem loadBytes_cases (addr : Word) (r : Nibble) (n : Nat) (s : State) :
    ∃ t, t = { s with x := t.x } ∧ (loadBytes addr r n s = .done t ∨
      ∃ a, loadBytes addr r n s = .raise (.outOfRangeAccess a) t) := by
  induction n generalizing addr r s with
  | zero => exact ⟨s, rfl, .inl rfl⟩
  | succ n ih =>
    by_cases hlt : addr.toNat < 4096
    · rw [loadBytes, memRead_ok hlt]
      obtain ⟨t, hx, h⟩ := ih (addr + 1#16) (r + 1#4) (s.setReg r (s.mem.byteAt addr.toNat))
      exact ⟨t, hx, h⟩
    · rw [loadBytes, memRead_error (by omega)]
      exact ⟨s, rfl, .inr ⟨_, rfl⟩⟩

/-! ## Fetch (40_execution_cycle.md R91) -/

theorem fetch_ok {s : State} (h : s.pc.toNat < 4095) :
    fetch s = .ok (joinBytes (s.mem.byteAt s.pc.toNat) (s.mem.byteAt (s.pc.toNat + 1))) := by
  have h1 := toNat_succ (addr := s.pc) (by omega)
  unfold fetch
  rw [memRead_ok (by omega), memRead_ok (by rw [h1]; omega), h1]

theorem fetch_error {s : State} (h : 4095 ≤ s.pc.toNat) :
    fetch s = .error (.outOfRangeAccess (firstOutOfRange s.pc)) := by
  unfold fetch
  by_cases h4095 : s.pc.toNat = 4095
  · have h1 := toNat_succ (addr := s.pc) (by omega)
    rw [memRead_ok (by omega), memRead_error (by rw [h1]; omega), h1]
    simp [firstOutOfRange, h4095]
  · rw [memRead_error (by omega), firstOutOfRange_self (by omega)]

/-- Fetch reads only memory and `pc`. -/
theorem fetch_congr {s t : State} (hm : t.mem = s.mem) (hp : t.pc = s.pc) : fetch t = fetch s := by
  simp only [fetch, memRead, hm, hp]

end Sys2Proof.Machine
end

