-- ==== Sys2Proof/Laws/Decode.lean ====
section
/-! SUPPORT. Fields, nibbles and rows of the words of each format (30_encoding.md R72, R73, R75). -/

namespace Sys2Proof

/-! ## Bits of a word of each format -/

theorem wordNNN_getLsbD (f : Nibble) (nnn : Addr12) (i : Nat) :
    (wordNNN f nnn).getLsbD i = if i < 12 then nnn.getLsbD i else f.getLsbD (i - 12) := by
  have h := BitVec.getLsbD_append (x := f) (y := nnn) (i := i)
  split at h <;> simp_all [wordNNN]

theorem wordXNN_getLsbD (f x : Nibble) (nn : Byte) (i : Nat) :
    (wordXNN f x nn).getLsbD i =
      if i < 8 then nn.getLsbD i else if i < 12 then x.getLsbD (i - 8) else f.getLsbD (i - 12) := by
  have h := BitVec.getLsbD_append (x := f ++ x) (y := nn) (i := i)
  have h' := BitVec.getLsbD_append (x := f) (y := x) (i := i - 8)
  change _ = _ at h
  unfold wordXNN
  rw [h]
  split
  · rfl
  · rw [h', show i - 8 - 4 = i - 12 by omega]
    by_cases hi : i < 12
    · rw [if_pos hi, if_pos (by omega)]
    · rw [if_neg hi, if_neg (by omega)]

theorem wordXYN_getLsbD (f x y n : Nibble) (i : Nat) :
    (wordXYN f x y n).getLsbD i =
      if i < 4 then n.getLsbD i
      else if i < 8 then y.getLsbD (i - 4) else if i < 12 then x.getLsbD (i - 8) else f.getLsbD (i - 12) := by
  have h := BitVec.getLsbD_append (x := f ++ x ++ y) (y := n) (i := i)
  have h' := BitVec.getLsbD_append (x := f ++ x) (y := y) (i := i - 4)
  have h'' := BitVec.getLsbD_append (x := f) (y := x) (i := i - 4 - 4)
  unfold wordXYN
  rw [h]
  split
  · rfl
  · rw [h', h'', show i - 4 - 4 - 4 = i - 12 by omega, show i - 4 - 4 = i - 8 by omega]
    by_cases hi : i < 8
    · rw [if_pos hi, if_pos (by omega)]
    · rw [if_neg hi, if_neg (by omega)]
      by_cases hj : i < 12
      · rw [if_pos hj, if_pos (by omega)]
      · rw [if_neg hj, if_neg (by omega)]

/-! ## The four nibbles of a word -/

/-- Nibble k of a word, bits 4k to 4k + 3. -/
def nibble (op : Word) (k : Nat) : Nibble := op.extractLsb' (4 * k) 4

theorem nibble_getLsbD (op : Word) (k i : Nat) (hi : i < 4) : (nibble op k).getLsbD i = op.getLsbD (4 * k + i) := by
  simp [nibble, hi]

/-- Two words with the same nibbles are equal. -/
theorem word_ext_nibbles {a b : Word} (h3 : nibble a 3 = nibble b 3) (h2 : nibble a 2 = nibble b 2)
    (h1 : nibble a 1 = nibble b 1) (h0 : nibble a 0 = nibble b 0) : a = b := by
  refine BitVec.eq_of_getLsbD_eq fun i hi => ?_
  have key : ∀ k, nibble a k = nibble b k → 4 * k ≤ i → i < 4 * k + 4 → a.getLsbD i = b.getLsbD i := by
    intro k hk hlo hhi
    have := congrArg (fun v => v.getLsbD (i - 4 * k)) hk
    simpa [nibble_getLsbD _ _ _ (show i - 4 * k < 4 by omega), show 4 * k + (i - 4 * k) = i by omega] using this
  rcases (show (i < 4 ∨ (4 ≤ i ∧ i < 8)) ∨ ((8 ≤ i ∧ i < 12) ∨ 12 ≤ i) by omega) with (h | h) | (h | h)
  · exact key 0 h0 (by omega) (by omega)
  · exact key 1 h1 (by omega) (by omega)
  · exact key 2 h2 (by omega) (by omega)
  · exact key 3 h3 (by omega) (by omega)

@[simp] theorem nibble_and (a b : Word) (k : Nat) : nibble (a &&& b) k = nibble a k &&& nibble b k := by
  refine BitVec.eq_of_getLsbD_eq fun i hi => ?_
  simp [nibble_getLsbD _ _ _ hi]

/-- A row matches a word when it does so nibble by nibble (R75). -/
theorem rowMatches_nibbles (op : Word) (r : OpcodeRow) :
    rowMatches op r =
      (nibble op 3 &&& nibble r.mask 3 == nibble r.pattern 3 && (nibble op 2 &&& nibble r.mask 2 == nibble r.pattern 2 &&
        (nibble op 1 &&& nibble r.mask 1 == nibble r.pattern 1 && nibble op 0 &&& nibble r.mask 0 == nibble r.pattern 0))) := by
  rw [Bool.eq_iff_iff]
  simp only [rowMatches, Bool.and_eq_true, beq_iff_eq, ← nibble_and]
  constructor
  · intro h
    simp [h]
  · intro h
    exact word_ext_nibbles h.1 h.2.1 h.2.2.1 h.2.2.2

@[simp] theorem nibble_wordXYN_3 (f x y n : Nibble) : nibble (wordXYN f x y n) 3 = f :=
  BitVec.eq_of_getLsbD_eq fun i hi => by
    simp [nibble_getLsbD _ _ _ hi, wordXYN_getLsbD, show ¬(12 + i < 4) by omega, show ¬(12 + i < 8) by omega]
@[simp] theorem nibble_wordXYN_2 (f x y n : Nibble) : nibble (wordXYN f x y n) 2 = x :=
  BitVec.eq_of_getLsbD_eq fun i hi => by
    simp [nibble_getLsbD _ _ _ hi, wordXYN_getLsbD, show ¬(8 + i < 4) by omega, show 8 + i < 12 by omega]
@[simp] theorem nibble_wordXYN_1 (f x y n : Nibble) : nibble (wordXYN f x y n) 1 = y :=
  BitVec.eq_of_getLsbD_eq fun i hi => by
    simp [nibble_getLsbD _ _ _ hi, wordXYN_getLsbD, show 4 + i < 8 by omega]
@[simp] theorem nibble_wordXYN_0 (f x y n : Nibble) : nibble (wordXYN f x y n) 0 = n :=
  BitVec.eq_of_getLsbD_eq fun i hi => by
    rw [nibble_getLsbD _ _ _ hi, wordXYN_getLsbD, if_pos (by omega)]; simp

/-- A word of format XNN as one of format XYN, its immediate cut in two nibbles. -/
theorem wordXNN_eq (f x : Nibble) (nn : Byte) :
    wordXNN f x nn = wordXYN f x (nn.extractLsb' 4 4) (nn.extractLsb' 0 4) := by
  refine BitVec.eq_of_getLsbD_eq fun i hi => ?_
  simp only [wordXNN_getLsbD, wordXYN_getLsbD, BitVec.getLsbD_extractLsb']
  by_cases h4 : i < 4
  · simp [h4, show i < 8 by omega]
  · by_cases h8 : i < 8
    · simp [h4, h8, show i - 4 < 4 by omega, show 4 + (i - 4) = i by omega]
    · simp [h4, h8]

/-- A word of format NNN as one of format XYN, its address cut in three nibbles. -/
theorem wordNNN_eq (f : Nibble) (nnn : Addr12) :
    wordNNN f nnn = wordXYN f (nnn.extractLsb' 8 4) (nnn.extractLsb' 4 4) (nnn.extractLsb' 0 4) := by
  refine BitVec.eq_of_getLsbD_eq fun i hi => ?_
  simp only [wordNNN_getLsbD, wordXYN_getLsbD, BitVec.getLsbD_extractLsb']
  by_cases h4 : i < 4
  · simp [h4, show i < 12 by omega]
  · by_cases h8 : i < 8
    · simp [h4, h8, show i < 12 by omega, show i - 4 < 4 by omega, show 4 + (i - 4) = i by omega]
    · by_cases h12 : i < 12
      · simp [h4, h8, h12, show i - 8 < 4 by omega, show 8 + (i - 8) = i by omega]
      · simp [h4, h8, h12]

/-- Every word is its four nibbles. -/
theorem wordXYN_nibbles (op : Word) : wordXYN (nibble op 3) (nibble op 2) (nibble op 1) (nibble op 0) = op :=
  word_ext_nibbles (by simp) (by simp) (by simp) (by simp)

/-- A nibble of a numeral. -/
@[simp] theorem nibble_ofNat (n k : Nat) (hk : k < 4) : nibble (BitVec.ofNat 16 n) k = BitVec.ofNat 4 (n / 16 ^ k) := by
  apply BitVec.eq_of_toNat_eq
  simp only [nibble, BitVec.extractLsb'_toNat, BitVec.toNat_ofNat, Nat.shiftRight_eq_div_pow]
  rcases (show k = 0 ∨ k = 1 ∨ k = 2 ∨ k = 3 by omega) with rfl | rfl | rfl | rfl <;> simp <;> omega

/-! ## Fields of a word (R72) -/

theorem fieldX_eq (op : Word) : fieldX op = nibble op 2 := rfl
theorem fieldY_eq (op : Word) : fieldY op = nibble op 1 := rfl
theorem fieldN_eq (op : Word) : fieldN op = nibble op 0 := rfl

@[simp] theorem fieldX_wordXYN (f x y n : Nibble) : fieldX (wordXYN f x y n) = x := nibble_wordXYN_2 f x y n
@[simp] theorem fieldY_wordXYN (f x y n : Nibble) : fieldY (wordXYN f x y n) = y := nibble_wordXYN_1 f x y n
@[simp] theorem fieldN_wordXYN (f x y n : Nibble) : fieldN (wordXYN f x y n) = n := nibble_wordXYN_0 f x y n

@[simp] theorem fieldX_wordXNN (f x : Nibble) (nn : Byte) : fieldX (wordXNN f x nn) = x := by
  rw [wordXNN_eq, fieldX_wordXYN]

@[simp] theorem fieldNN_wordXNN (f x : Nibble) (nn : Byte) : fieldNN (wordXNN f x nn) = nn :=
  BitVec.eq_of_getLsbD_eq fun i hi => by simp [fieldNN, wordXNN_getLsbD, hi]

@[simp] theorem fieldNNN_wordNNN (f : Nibble) (nnn : Addr12) : fieldNNN (wordNNN f nnn) = nnn :=
  BitVec.eq_of_getLsbD_eq fun i hi => by simp [fieldNNN, wordNNN_getLsbD, hi]

@[simp] theorem nibble_wordXNN_3 (f x : Nibble) (nn : Byte) : nibble (wordXNN f x nn) 3 = f := by
  rw [wordXNN_eq, nibble_wordXYN_3]
@[simp] theorem nibble_wordXNN_2 (f x : Nibble) (nn : Byte) : nibble (wordXNN f x nn) 2 = x := by
  rw [wordXNN_eq, nibble_wordXYN_2]
@[simp] theorem nibble_wordXNN_1 (f x : Nibble) (nn : Byte) : nibble (wordXNN f x nn) 1 = nn.extractLsb' 4 4 := by
  rw [wordXNN_eq, nibble_wordXYN_1]
@[simp] theorem nibble_wordXNN_0 (f x : Nibble) (nn : Byte) : nibble (wordXNN f x nn) 0 = nn.extractLsb' 0 4 := by
  rw [wordXNN_eq, nibble_wordXYN_0]
@[simp] theorem nibble_wordNNN_3 (f : Nibble) (nnn : Addr12) : nibble (wordNNN f nnn) 3 = f := by
  rw [wordNNN_eq, nibble_wordXYN_3]
@[simp] theorem nibble_wordNNN_2 (f : Nibble) (nnn : Addr12) : nibble (wordNNN f nnn) 2 = nnn.extractLsb' 8 4 := by
  rw [wordNNN_eq, nibble_wordXYN_2]
@[simp] theorem nibble_wordNNN_1 (f : Nibble) (nnn : Addr12) : nibble (wordNNN f nnn) 1 = nnn.extractLsb' 4 4 := by
  rw [wordNNN_eq, nibble_wordXYN_1]
@[simp] theorem nibble_wordNNN_0 (f : Nibble) (nnn : Addr12) : nibble (wordNNN f nnn) 0 = nnn.extractLsb' 0 4 := by
  rw [wordNNN_eq, nibble_wordXYN_0]

/-- A word of format XNN from its opcode nibble, X and NN. -/
theorem wordXNN_fields (op : Word) : wordXNN (nibble op 3) (fieldX op) (fieldNN op) = op := by
  refine word_ext_nibbles (by simp) (by simp [fieldX_eq]) ?_ ?_ <;>
    · refine BitVec.eq_of_getLsbD_eq fun i hi => ?_
      simp [nibble, fieldNN, hi, wordXNN_getLsbD, show 4 + i < 8 by omega, show i < 8 by omega]

/-- A word of format NNN from its opcode nibble and NNN. -/
theorem wordNNN_fields (op : Word) : wordNNN (nibble op 3) (fieldNNN op) = op := by
  refine word_ext_nibbles (by simp) ?_ ?_ ?_ <;>
    · refine BitVec.eq_of_getLsbD_eq fun i hi => ?_
      simp [nibble, fieldNNN, hi, wordNNN_getLsbD, show 8 + i < 12 by omega, show 4 + i < 12 by omega,
        show i < 12 by omega]

/-- The nibbles of NN and NNN are those of the word. -/
@[simp] theorem fieldNN_high (op : Word) : (fieldNN op).extractLsb' 4 4 = nibble op 1 := by
  have h := congrArg (fun w => nibble w 1) (wordXNN_fields op)
  simpa using h
@[simp] theorem fieldNN_low (op : Word) : (fieldNN op).extractLsb' 0 4 = nibble op 0 := by
  have h := congrArg (fun w => nibble w 0) (wordXNN_fields op)
  simpa using h
@[simp] theorem fieldNNN_high (op : Word) : (fieldNNN op).extractLsb' 8 4 = nibble op 2 := by
  have h := congrArg (fun w => nibble w 2) (wordNNN_fields op)
  simpa using h
@[simp] theorem fieldNNN_mid (op : Word) : (fieldNNN op).extractLsb' 4 4 = nibble op 1 := by
  have h := congrArg (fun w => nibble w 1) (wordNNN_fields op)
  simpa using h
@[simp] theorem fieldNNN_low (op : Word) : (fieldNNN op).extractLsb' 0 4 = nibble op 0 := by
  have h := congrArg (fun w => nibble w 0) (wordNNN_fields op)
  simpa using h

/-- The mask nibble of a fixed nibble keeps it. -/
@[simp] theorem nibble_and_ones (a : Nibble) : a &&& 15#4 = a := BitVec.and_allOnes

/-! ## The decoder -/

/-- What a successful decoding says: a row of the table matches, and the instruction is what it builds. -/
theorem decodeOp_ok {op : Word} {i : Instr} (h : decodeOp op = .ok i) :
    ∃ r ∈ opcodeTable, rowMatches op r = true ∧ r.build op = i := by
  unfold decodeOp at h
  split at h
  · rename_i r hr
    exact ⟨r, List.mem_of_find?_eq_some hr, List.find?_some hr, by simpa using h⟩
  · cases h

/-- Some bit that both rows fix has different values in the two patterns. -/
def rowsConflict (p q : OpcodeRow) : Bool := (p.pattern ^^^ q.pattern) &&& p.mask &&& q.mask != 0#16

/-- Rows 1 to 34 fix some common bit differently, two by two (R78). -/
theorem definedRows_conflict : definedRows.Pairwise fun p q => rowsConflict p q = true := by decide

/-- Conflicting rows match no word in common. -/
theorem not_both_match {p q : OpcodeRow} (h : rowsConflict p q = true) (op : Word) :
    ¬(rowMatches op p = true ∧ rowMatches op q = true) := by
  rintro ⟨hp, hq⟩
  simp only [rowMatches, beq_iff_eq] at hp hq
  apply bne_iff_ne.mp h
  rw [← hp, ← hq]
  refine BitVec.eq_of_getLsbD_eq fun i hi => ?_
  simp only [BitVec.getLsbD_and, BitVec.getLsbD_xor, BitVec.getLsbD_zero]
  cases op.getLsbD i <;> cases p.mask.getLsbD i <;> cases q.mask.getLsbD i <;> rfl

/-- A word that a row 1 to 34 matches decodes by that row: the order does not matter (R78). -/
theorem find?_of_rowMatches {l : List OpcodeRow} (hl : l.Pairwise fun p q => rowsConflict p q = true) {op : Word}
    {r : OpcodeRow} (hr : r ∈ l) (hm : rowMatches op r = true) : l.find? (rowMatches op) = some r := by
  induction l with
  | nil => cases hr
  | cons p rest ih =>
    rw [List.pairwise_cons] at hl
    rcases List.mem_cons.mp hr with rfl | hr'
    · simp [hm]
    · have hp : rowMatches op p = false := by
        by_contra hc
        exact not_both_match (hl.1 r hr') op ⟨by simpa using hc, hm⟩
      simp [hp, ih hl.2 hr']

/-- Decoding by a row 1 to 34 that matches. -/
theorem decodeOp_of_definedRow {op : Word} {r : OpcodeRow} (hr : r ∈ definedRows) (hm : rowMatches op r = true) :
    decodeOp op = .ok (r.build op) := by
  unfold decodeOp opcodeTable
  rw [List.find?_append, find?_of_rowMatches definedRows_conflict hr hm]
  rfl

/-- The word of the bytes it is stored as. -/
@[simp] theorem joinBytes_wordBytes (op : Word) : joinBytes (op.extractLsb' 8 8) (op.extractLsb' 0 8) = op := by
  refine BitVec.eq_of_getLsbD_eq fun i hi => ?_
  have h := BitVec.getLsbD_append (x := op.extractLsb' 8 8) (y := op.extractLsb' 0 8) (i := i)
  unfold joinBytes
  rw [h]
  split
  · rename_i h8; simp [h8]
  · rename_i h8
    simp [show i - 8 < 8 by omega, show 8 + (i - 8) = i by omega]

end Sys2Proof
end

