-- ==== Sys2Proof/Laws/Display.lean ====
section
/-! SUPPORT. The framebuffer and the draw: each part of a sprite toggles a set of pixels, and the sets add up. -/

namespace Sys2Proof.Machine

/-! ## Pixels (10_state.md R34, R35) -/

/-- Outside the grid no pixel is on. -/
theorem pixelOn_outside {fb : Screen} {px py : Nat} (h : ¬(px < 64 ∧ py < 32)) : pixelOn fb px py = false := by
  unfold pixelOn
  rw [dif_neg h]

/-- A pixel after one pixel was set. -/
theorem pixelOn_setPixel (fb : Screen) (px py qx qy : Nat) (on : Bool) :
    pixelOn (setPixel fb px py on) qx qy =
      if qx = px ∧ qy = py ∧ px < 64 ∧ py < 32 then on else pixelOn fb qx qy := by
  unfold setPixel
  by_cases hp : px < 64 ∧ py < 32
  · rw [dif_pos hp]
    by_cases hq : qx < 64 ∧ qy < 32
    · simp only [pixelOn, dif_pos hq, Vector.getElem_set]
      by_cases hy : py = qy
      · subst hy
        by_cases hx : px = qx
        · subst hx
          simp [hp.1, hp.2]
        · simp [hx, show ¬(qx = px) from fun e => hx e.symm]
      · simp [hy, show ¬(qy = py) from fun e => hy e.symm]
    · rw [pixelOn_outside hq, pixelOn_outside hq, if_neg]
      rintro ⟨rfl, rfl, h⟩
      exact hq h
  · rw [dif_neg hp, if_neg]
    rintro ⟨-, -, h⟩
    exact hp h

/-- The cleared framebuffer has no pixel on. -/
@[simp] theorem pixelOn_blank (px py : Nat) : pixelOn Screen.blank px py = false := by
  unfold pixelOn Screen.blank
  split
  · simp
  · rfl

/-- Two framebuffers with the same pixels are equal. -/
theorem screen_ext {fb gb : Screen} (h : ∀ px py, px < 64 → py < 32 → pixelOn fb px py = pixelOn gb px py) :
    fb = gb := by
  apply Vector.ext
  intro y hy
  apply Vector.ext
  intro x hx
  have := h x y hx hy
  simpa [pixelOn, hx, hy] using this

/-! ## Sets of toggled pixels -/

/-- Some on-screen pixel of the set is on. -/
def Hits (s : State) (P : Nat → Nat → Bool) : Prop :=
  ∃ px py, px < 64 ∧ py < 32 ∧ pixelOn s.FB px py = true ∧ P px py = true

/-- From `s` to `t` the on-screen pixels of a set were toggled, `x[15]` became 1 when one of them was on, and
nothing else changed. -/
structure Toggles (s t : State) (P : Nat → Nat → Bool) : Prop where
  frame : t = { s with FB := t.FB, x := t.x }
  regs : ∀ q, q ≠ flagReg → t.reg q = s.reg q
  pixels : ∀ px py, px < 64 → py < 32 → pixelOn t.FB px py = (pixelOn s.FB px py ^^ P px py)
  hit : Hits s P → t.reg flagReg = 1#8
  noHit : ¬Hits s P → t.reg flagReg = s.reg flagReg

theorem toggles_none {s : State} {P : Nat → Nat → Bool} (h : ∀ px py, px < 64 → py < 32 → P px py = false) :
    Toggles s s P where
  frame := rfl
  regs := fun _ _ => rfl
  pixels := fun px py hx hy => by simp [h px py hx hy]
  hit := fun ⟨px, py, hx, hy, _, hP⟩ => by simp [h px py hx hy] at hP
  noHit := fun _ => rfl

/-- Only the on-screen pixels of the set matter. -/
theorem Toggles.congr {s t : State} {P Q : Nat → Nat → Bool} (hPQ : ∀ px py, px < 64 → py < 32 → P px py = Q px py)
    (h : Toggles s t P) : Toggles s t Q where
  frame := h.frame
  regs := h.regs
  pixels := fun px py hx hy => by rw [h.pixels px py hx hy, hPQ px py hx hy]
  hit := fun ⟨px, py, hx, hy, hon, hQ⟩ => h.hit ⟨px, py, hx, hy, hon, by rw [hPQ px py hx hy, hQ]⟩
  noHit := fun hno => h.noHit fun ⟨px, py, hx, hy, hon, hP⟩ =>
    hno ⟨px, py, hx, hy, hon, by rw [← hPQ px py hx hy, hP]⟩

/-- Two disjoint sets toggled one after the other. -/
theorem Toggles.trans {s t u : State} {P Q : Nat → Nat → Bool} (hst : Toggles s t P) (htu : Toggles t u Q)
    (hdisj : ∀ px py, P px py = true → Q px py = false) : Toggles s u fun px py => P px py || Q px py where
  frame := by rw [htu.frame, hst.frame]
  regs := fun q hq => by rw [htu.regs q hq, hst.regs q hq]
  pixels := fun px py hx hy => by
    rw [htu.pixels px py hx hy, hst.pixels px py hx hy]
    have := hdisj px py
    cases hP : P px py <;> cases hQ : Q px py <;> cases pixelOn s.FB px py <;> simp_all
  hit := fun ⟨px, py, hx, hy, hon, hPQ⟩ => by
    by_cases hP : P px py = true
    · have h1 := hst.hit ⟨px, py, hx, hy, hon, hP⟩
      by_cases hQ : Hits t Q
      · exact htu.hit hQ
      · rw [htu.noHit hQ, h1]
    · have hQ : Q px py = true := by simpa [hP] using hPQ
      have hP' : P px py = false := by simpa using hP
      exact htu.hit ⟨px, py, hx, hy, by rw [hst.pixels px py hx hy, hon, hP']; rfl, hQ⟩
  noHit := fun hno => by
    have hP : ¬Hits s P := fun ⟨px, py, hx, hy, hon, h⟩ => hno ⟨px, py, hx, hy, hon, by simp [h]⟩
    have hQ : ¬Hits t Q := fun ⟨px, py, hx, hy, hon, h⟩ => by
      by_cases hPp : P px py = true
      · exact absurd h (by simp [hdisj px py hPp])
      · have hP' : P px py = false := by simpa using hPp
        rw [hst.pixels px py hx hy, hP'] at hon
        exact hno ⟨px, py, hx, hy, by simpa using hon, by simp [h]⟩
    rw [htu.noHit hQ, hst.noHit hP]

/-- One on-screen pixel toggled. -/
theorem togglePixel_toggles {px py : Nat} (hx : px < 64) (hy : py < 32) (s : State) :
    Toggles s (togglePixel px py s) fun qx qy => decide (qx = px ∧ qy = py) where
  frame := by
    unfold togglePixel
    simp only
    split <;> rfl
  regs := fun q hq => by
    unfold togglePixel
    simp only
    split <;> simp [hq]
  pixels := fun qx qy hqx hqy => by
    have hFB : (togglePixel px py s).FB = setPixel s.FB px py (!pixelOn s.FB px py) := by
      unfold togglePixel
      simp
    rw [hFB, pixelOn_setPixel]
    by_cases h : qx = px ∧ qy = py
    · obtain ⟨rfl, rfl⟩ := h
      simp [hx, hy]
    · rw [if_neg (fun hc => h ⟨hc.1, hc.2.1⟩)]
      simp [h]
  hit := fun ⟨qx, qy, _, _, hon, hP⟩ => by
    simp only [decide_eq_true_eq] at hP
    obtain ⟨rfl, rfl⟩ := hP
    unfold togglePixel
    simp [hon]
  noHit := fun hno => by
    have hoff : pixelOn s.FB px py = false := by
      by_contra hc
      exact hno ⟨px, py, hx, hy, by simpa using hc, by simp⟩
    unfold togglePixel
    simp [hoff]

/-! ## Rows and sprites (44_display.md R161) -/

/-- The pixels under a 1 bit of the first `k` columns of a row byte drawn at column `x0` of screen row `y`. -/
def columnsBit (b : Byte) (x0 y k px py : Nat) : Bool :=
  decide (x0 ≤ px ∧ px < x0 + k ∧ py = y) && b.getLsbD (7 - (px - x0))

theorem drawColumn_toggles {b : Byte} {x0 y c : Nat} (hy : y < 32) (s : State) :
    Toggles s (drawColumn b x0 y s c) fun px py => decide (px = x0 + c ∧ py = y) && b.getLsbD (7 - c) := by
  unfold drawColumn
  by_cases h : x0 + c ≤ 63 ∧ b.getLsbD (7 - c) = true
  · rw [if_pos h]
    refine (togglePixel_toggles (by omega) hy s).congr fun px py _ _ => ?_
    simp [h.2]
  · rw [if_neg h]
    refine toggles_none fun px py hpx _ => ?_
    by_cases hb : b.getLsbD (7 - c) = true
    · have : ¬(px = x0 + c) := fun e => h ⟨by omega, hb⟩
      simp [this]
    · simp only [Bool.not_eq_true] at hb
      rw [hb, Bool.and_false]

theorem drawColumns_toggles {b : Byte} {x0 y : Nat} (hy : y < 32) (s : State) (k : Nat) :
    Toggles s ((List.range k).foldl (drawColumn b x0 y) s) (columnsBit b x0 y k) := by
  induction k with
  | zero =>
    refine toggles_none fun px py _ _ => ?_
    simp [columnsBit, show ¬(x0 ≤ px ∧ px < x0 ∧ py = y) by omega]
  | succ k ih =>
    rw [List.range_succ, List.foldl_append]
    refine (ih.trans (drawColumn_toggles hy _) ?_).congr ?_
    · intro px py h
      simp only [columnsBit, Bool.and_eq_true, decide_eq_true_eq] at h
      simp [show ¬(px = x0 + k ∧ py = y) by omega]
    · intro px py _ _
      simp only [columnsBit]
      by_cases hp : px = x0 + k ∧ py = y
      · obtain ⟨rfl, rfl⟩ := hp
        simp
      · by_cases hq : x0 ≤ px ∧ px < x0 + k ∧ py = y
        · rw [decide_eq_true hq, decide_eq_false hp,
            decide_eq_true (show x0 ≤ px ∧ px < x0 + (k + 1) ∧ py = y by omega)]
          simp
        · rw [decide_eq_false hq, decide_eq_false hp,
            decide_eq_false (show ¬(x0 ≤ px ∧ px < x0 + (k + 1) ∧ py = y) by omega)]
          rfl

theorem drawRow_toggles (b : Byte) (x0 y : Nat) (s : State) : Toggles s (drawRow b x0 y s) (columnsBit b x0 y 8) := by
  unfold drawRow
  by_cases hy : y ≤ 31
  · rw [if_pos hy]
    exact drawColumns_toggles (by omega) s 8
  · rw [if_neg hy]
    refine toggles_none fun px py _ hpy => ?_
    simp [columnsBit, show ¬(x0 ≤ px ∧ px < x0 + 8 ∧ py = y) by omega]

/-- The pixels under a 1 bit of `n` row bytes from address `a`, drawn at column `x0` from screen row `y`. -/
def rowsBit (m : Memory) (a x0 y n px py : Nat) : Bool :=
  decide (x0 ≤ px ∧ px < x0 + 8 ∧ y ≤ py ∧ py < y + n) && (m.byteAt (a + (py - y))).getLsbD (7 - (px - x0))

theorem spriteBit_eq_rowsBit (s : State) (x0 y0 n px py : Nat) :
    spriteBit s x0 y0 n px py = rowsBit s.mem s.I.toNat x0 y0 n px py := rfl

theorem rowsBit_succ (m : Memory) (a x0 y n px py : Nat) :
    (columnsBit (m.byteAt a) x0 y 8 px py || rowsBit m (a + 1) x0 (y + 1) n px py) =
      rowsBit m a x0 y (n + 1) px py := by
  simp only [columnsBit, rowsBit]
  by_cases h0 : py = y
  · subst h0
    by_cases hx : x0 ≤ px ∧ px < x0 + 8
    · simp [hx]
    · rw [decide_eq_false (by omega), decide_eq_false (by omega),
        decide_eq_false (show ¬(x0 ≤ px ∧ px < x0 + 8 ∧ py ≤ py ∧ py < py + (n + 1)) by omega)]
      rfl
  · by_cases hin : x0 ≤ px ∧ px < x0 + 8 ∧ y + 1 ≤ py ∧ py < y + 1 + n
    · rw [show a + 1 + (py - (y + 1)) = a + (py - y) by omega]
      simp [h0, hin, show x0 ≤ px ∧ px < x0 + 8 ∧ y ≤ py ∧ py < y + (n + 1) by omega]
    · rw [decide_eq_false (by omega), decide_eq_false hin,
        decide_eq_false (show ¬(x0 ≤ px ∧ px < x0 + 8 ∧ y ≤ py ∧ py < y + (n + 1)) by omega)]
      rfl

theorem rowsBit_disjoint {m : Memory} {a b x0 y n px py : Nat} {c : Byte} (h : columnsBit c x0 y b px py = true) :
    rowsBit m a x0 (y + 1) n px py = false := by
  simp only [columnsBit, Bool.and_eq_true, decide_eq_true_eq] at h
  simp only [rowsBit]
  rw [decide_eq_false (by omega)]
  rfl

/-- Rows that lie inside memory are all drawn. -/
theorem drawRows_done {x0 : Nat} {addr : Word} {y n : Nat} (hfit : addr.toNat + n ≤ 4096 ∨ n = 0) (s : State) :
    ∃ t, drawRows x0 addr y n s = .done t ∧ Toggles s t (rowsBit s.mem addr.toNat x0 y n) := by
  induction n generalizing addr y s with
  | zero =>
    refine ⟨s, rfl, toggles_none fun px py _ _ => ?_⟩
    simp only [rowsBit]
    rw [decide_eq_false (by omega)]
    rfl
  | succ n ih =>
    have hlt : addr.toNat < 4096 := by omega
    have h1 := toNat_succ hlt
    rw [drawRows, memRead_ok hlt]
    have hrow := drawRow_toggles (s.mem.byteAt addr.toNat) x0 y s
    obtain ⟨t, ht, htog⟩ := ih (addr := addr + 1#16) (y := y + 1) (by rw [h1]; omega)
      (drawRow (s.mem.byteAt addr.toNat) x0 y s)
    refine ⟨t, ht, ?_⟩
    have hmem : (drawRow (s.mem.byteAt addr.toNat) x0 y s).mem = s.mem := by rw [hrow.frame]
    rw [hmem, h1] at htog
    exact (hrow.trans htog fun _ _ => rowsBit_disjoint).congr fun px py _ _ => rowsBit_succ ..

/-- Rows that run out of memory: those before the end are drawn, then the access error is raised. -/
theorem drawRows_raise {x0 : Nat} {addr : Word} {y n : Nat} (hn : 0 < n) (hover : 4096 < addr.toNat + n)
    (s : State) :
    ∃ t, drawRows x0 addr y n s = .raise (.outOfRangeAccess (firstOutOfRange addr)) t ∧
      Toggles s t (rowsBit s.mem addr.toNat x0 y (4096 - addr.toNat)) := by
  induction n generalizing addr y s with
  | zero => omega
  | succ n ih =>
    by_cases hlt : addr.toNat < 4096
    · have h1 := toNat_succ hlt
      rw [drawRows, memRead_ok hlt]
      have hrow := drawRow_toggles (s.mem.byteAt addr.toNat) x0 y s
      obtain ⟨t, ht, htog⟩ := ih (addr := addr + 1#16) (y := y + 1) (by omega) (by rw [h1]; omega)
        (drawRow (s.mem.byteAt addr.toNat) x0 y s)
      refine ⟨t, by simp only; rw [ht, firstOutOfRange_succ hlt], ?_⟩
      have hmem : (drawRow (s.mem.byteAt addr.toNat) x0 y s).mem = s.mem := by rw [hrow.frame]
      rw [hmem, h1] at htog
      rw [show 4096 - addr.toNat = (4096 - (addr.toNat + 1)) + 1 by omega]
      exact (hrow.trans htog fun _ _ => rowsBit_disjoint).congr fun px py _ _ => rowsBit_succ ..
    · rw [drawRows, memRead_error (by omega)]
      refine ⟨s, by rw [firstOutOfRange_self (by omega)], toggles_none fun px py _ _ => ?_⟩
      rw [show 4096 - addr.toNat = 0 by omega]
      simp only [rowsBit]
      rw [decide_eq_false (by omega)]
      rfl

/-- Everything a draw of rows can do: it changes the framebuffer and `x[15]` only. -/
theorem drawRows_cases (x0 : Nat) (addr : Word) (y n : Nat) (s : State) :
    ∃ t P, Toggles s t P ∧ (drawRows x0 addr y n s = .done t ∨
      ∃ a, drawRows x0 addr y n s = .raise (.outOfRangeAccess a) t) := by
  by_cases hfit : addr.toNat + n ≤ 4096 ∨ n = 0
  · obtain ⟨t, ht, htog⟩ := drawRows_done hfit s
    exact ⟨t, _, htog, .inl ht⟩
  · obtain ⟨t, ht, htog⟩ := drawRows_raise (x0 := x0) (addr := addr) (y := y) (n := n) (by omega) (by omega) s
    exact ⟨t, _, htog, .inr ⟨_, ht⟩⟩

end Sys2Proof.Machine
end

