-- ==== Sys2Proof/Laws/Frame.lean ====
section
/-! SUPPORT. What each shared operation leaves alone, in the terms of Safety.lean, and what the stack, the latch and
a block store can do. -/

namespace Sys2Proof.Machine

/-! ## Frames compose -/

/-- A frame holds with more parts allowed to change. -/
theorem OnlyChanges.mono {s t : State} {ps rs : List Part} (h : OnlyChanges ps s t) (hle : ∀ p, p ∉ rs → p ∉ ps) :
    OnlyChanges rs s t := fun p hp => h p (hle p hp)

/-- One frame after another. -/
theorem OnlyChanges.trans {s t u : State} {ps qs rs : List Part} (hst : OnlyChanges ps s t)
    (htu : OnlyChanges qs t u) (hle : ∀ p, p ∉ rs → p ∉ ps ∧ p ∉ qs) : OnlyChanges rs s u := by
  intro p hp
  have h1 := hst p (hle p hp).1
  have h2 := htu p (hle p hp).2
  cases p <;> simp_all [Unchanged]

/-! ## Frames of the shared operations -/

theorem takeError_frame (e : Fault) (s : State) : OnlyChanges [.halt] s (takeError e s) := by
  intro p hp
  cases p <;> simp [Unchanged] at hp ⊢

theorem autoIncrement_frame (s : State) : OnlyChanges [.pc] s (autoIncrement s) := by
  intro p hp
  cases p <;> simp [Unchanged] at hp ⊢

theorem skipIf_frame (c : Bool) (s : State) : OnlyChanges [.pc] s (skipIf c s) := by
  intro p hp
  cases p <;> simp [Unchanged] at hp ⊢

theorem advanceI_frame (x : Nibble) (s : State) : OnlyChanges [.index] s (advanceI x s) := by
  intro p hp
  cases p <;> simp [Unchanged, advanceI] at hp ⊢

/-- A state that differs in the register file only, as `loadBytes` leaves it. -/
theorem regs_frame {s t : State} (h : t = { s with x := t.x }) : OnlyChanges [.regs] s t := by
  intro p hp
  rw [h]
  cases p <;> simp [Unchanged] at hp ⊢

/-- What `Toggles` leaves alone. -/
theorem Toggles.only {s t : State} {P : Nat → Nat → Bool} (h : Toggles s t P) :
    OnlyChanges [.regs, .screen] s t := by
  intro p hp
  rw [h.frame]
  cases p <;> simp [Unchanged] at hp ⊢

/-! ## The call stack (10_state.md R29, R30) -/

/-- Everything `Push` can do. -/
theorem push_cases (v : Word) (s : State) :
    (∃ h : s.sp.val < 16,
      push v s = .done { s with stack := s.stack.set s.sp.val v h, sp := ⟨s.sp.val + 1, by omega⟩ }) ∨
    (s.sp.val = 16 ∧ push v s = .raise .stackOverflow s) := by
  unfold push
  split
  · rename_i h
    exact .inl ⟨h, rfl⟩
  · have := s.sp.isLt
    exact .inr ⟨by omega, rfl⟩

/-- Everything `Pop` into `pc` can do. -/
theorem popToPc_cases (s : State) :
    (∃ v, 0 < s.sp.val ∧ s.stack[s.sp.val - 1]? = some v ∧
      popToPc s = .done { s with sp := ⟨s.sp.val - 1, by omega⟩, pc := v }) ∨
    (s.sp.val = 0 ∧ popToPc s = .raise .stackUnderflow s) := by
  by_cases h : s.sp.val = 0
  · exact .inr ⟨h, by simp [popToPc, State.top, h]⟩
  · have hlt := s.sp.isLt
    have hv := Vector.getElem?_eq_getElem (xs := s.stack) (i := s.sp.val - 1) (by omega)
    exact .inl ⟨_, by omega, hv, by simp [popToPc, State.top, h, hv]⟩

/-! ## The wait for a key (45_input.md R172) -/

/-- Everything the handler of FX0A can do. -/
theorem keyWait_cases (x : Nibble) (s : State) :
    (s.waiting = false ∧ keyWait x s = s.setLatch true s.keys) ∨
    (s.waiting = true ∧ s.keys ≠ s.waitKeys ∧
      keyWait x s = (s.setReg x ((keySelect s.waitKeys s.keys).zeroExtend 8)).setLatch false s.waitKeys) ∨
    (s.waiting = true ∧ s.keys = s.waitKeys ∧ keyWait x s = s) := by
  cases hw : s.waiting <;> by_cases hk : s.keys = s.waitKeys <;> simp [keyWait, hw, hk]

/-! ## Block stores in the terms of Safety.lean (20_memory.md R54) -/

/-- A block store that fits leaves its bytes stored. -/
theorem storeBytes_stored {s : State} (hm : s.mem.wf = true) {addr : Word} {bs : List Byte}
    (hfit : addr.toNat + bs.length ≤ 4096) :
    StoredFrom addr.toNat bs s (s.setMem (s.mem.setBytes addr.toNat bs)) := by
  intro a
  rw [State.setMem_mem, byteAt_setBytes hm hfit]
  by_cases h : addr.toNat ≤ a ∧ a < addr.toNat + bs.length
  · simp [h, show a < 4096 by omega]
  · rw [dif_neg h, dif_neg (by omega)]

/-- A block store that runs out of memory leaves the bytes before 4096 stored. -/
theorem storeBytes_stored_partly {s : State} (hm : s.mem.wf = true) {addr : Word} {bs : List Byte}
    (hover : 4096 < addr.toNat + bs.length) :
    StoredFrom addr.toNat bs s (s.setMem (s.mem.setBytes addr.toNat (bs.take (4096 - addr.toNat)))) := by
  intro a
  by_cases h0 : 4096 ≤ addr.toNat
  · rw [show 4096 - addr.toNat = 0 by omega, dif_neg (by omega)]
    rfl
  · have hl : (bs.take (4096 - addr.toNat)).length = 4096 - addr.toNat := by
      simp
      omega
    rw [State.setMem_mem, byteAt_setBytes hm (by omega)]
    by_cases h : addr.toNat ≤ a ∧ a < 4096
    · rw [dif_pos (by omega), dif_pos (by omega)]
      simp
    · rw [dif_neg (by omega), dif_neg (by omega)]

end Sys2Proof.Machine
end

