-- ==== Sys2Proof/Laws/PerInstr.lean ====
section
/-! SUPPORT. The family EncodesInRow: the encoding of each instruction lies in its row of the opcode table, and the
row builds the instruction from it. -/

namespace Sys2Proof.Laws.EncodesInRow

/-- The row of the opcode table an instruction belongs to, by its place (30_encoding.md R76). -/
def rowNumber : Instr → Nat
  | .ldImm _ _ => 0
  | .addImm _ _ => 1
  | .ldReg _ _ => 2
  | .orReg _ _ => 3
  | .andReg _ _ => 4
  | .xorReg _ _ => 5
  | .addReg _ _ => 6
  | .subReg _ _ => 7
  | .shr _ _ => 8
  | .subn _ _ => 9
  | .shl _ _ => 10
  | .jp _ => 11
  | .seImm _ _ => 12
  | .sneImm _ _ => 13
  | .seReg _ _ => 14
  | .sneReg _ _ => 15
  | .jpV0 _ => 16
  | .call _ => 17
  | .ret => 18
  | .ldI _ => 19
  | .addI _ => 20
  | .rnd _ _ => 21
  | .ldFont _ => 22
  | .cls => 23
  | .drw _ _ _ => 24
  | .skp _ => 25
  | .sknp _ => 26
  | .ldKey _ => 27
  | .ldVxDT _ => 28
  | .ldDTVx _ => 29
  | .ldSTVx _ => 30
  | .ldBcd _ => 31
  | .storeRegs _ => 32
  | .loadRegs _ => 33
  | .sys _ => 34

/-- The instruction's encoding lies in its row, and that row builds the instruction from it. -/
def Statement (i : Instr) : Prop :=
  ∃ r, opcodeTable[rowNumber i]? = some r ∧ rowMatches (encode i) r = true ∧ r.build (encode i) = i

theorem ldImm (x : Nibble) (nn : Byte) : Statement (.ldImm x nn) :=
  ⟨_, rfl, by simp [rowMatches_nibbles, encode], by simp [encode]⟩

theorem addImm (x : Nibble) (nn : Byte) : Statement (.addImm x nn) :=
  ⟨_, rfl, by simp [rowMatches_nibbles, encode], by simp [encode]⟩

theorem ldReg (x : Nibble) (y : Nibble) : Statement (.ldReg x y) :=
  ⟨_, rfl, by simp [rowMatches_nibbles, encode], by simp [encode]⟩

theorem orReg (x : Nibble) (y : Nibble) : Statement (.orReg x y) :=
  ⟨_, rfl, by simp [rowMatches_nibbles, encode], by simp [encode]⟩

theorem andReg (x : Nibble) (y : Nibble) : Statement (.andReg x y) :=
  ⟨_, rfl, by simp [rowMatches_nibbles, encode], by simp [encode]⟩

theorem xorReg (x : Nibble) (y : Nibble) : Statement (.xorReg x y) :=
  ⟨_, rfl, by simp [rowMatches_nibbles, encode], by simp [encode]⟩

theorem addReg (x : Nibble) (y : Nibble) : Statement (.addReg x y) :=
  ⟨_, rfl, by simp [rowMatches_nibbles, encode], by simp [encode]⟩

theorem subReg (x : Nibble) (y : Nibble) : Statement (.subReg x y) :=
  ⟨_, rfl, by simp [rowMatches_nibbles, encode], by simp [encode]⟩

theorem shr (x : Nibble) (y : Nibble) : Statement (.shr x y) :=
  ⟨_, rfl, by simp [rowMatches_nibbles, encode], by simp [encode]⟩

theorem subn (x : Nibble) (y : Nibble) : Statement (.subn x y) :=
  ⟨_, rfl, by simp [rowMatches_nibbles, encode], by simp [encode]⟩

theorem shl (x : Nibble) (y : Nibble) : Statement (.shl x y) :=
  ⟨_, rfl, by simp [rowMatches_nibbles, encode], by simp [encode]⟩

theorem jp (nnn : Addr12) : Statement (.jp nnn) :=
  ⟨_, rfl, by simp [rowMatches_nibbles, encode], by simp [encode]⟩

theorem seImm (x : Nibble) (nn : Byte) : Statement (.seImm x nn) :=
  ⟨_, rfl, by simp [rowMatches_nibbles, encode], by simp [encode]⟩

theorem sneImm (x : Nibble) (nn : Byte) : Statement (.sneImm x nn) :=
  ⟨_, rfl, by simp [rowMatches_nibbles, encode], by simp [encode]⟩

theorem seReg (x : Nibble) (y : Nibble) : Statement (.seReg x y) :=
  ⟨_, rfl, by simp [rowMatches_nibbles, encode], by simp [encode]⟩

theorem sneReg (x : Nibble) (y : Nibble) : Statement (.sneReg x y) :=
  ⟨_, rfl, by simp [rowMatches_nibbles, encode], by simp [encode]⟩

theorem jpV0 (nnn : Addr12) : Statement (.jpV0 nnn) :=
  ⟨_, rfl, by simp [rowMatches_nibbles, encode], by simp [encode]⟩

theorem call (nnn : Addr12) : Statement (.call nnn) :=
  ⟨_, rfl, by simp [rowMatches_nibbles, encode], by simp [encode]⟩

theorem ret : Statement (.ret) :=
  ⟨_, rfl, by simp [rowMatches_nibbles, encode], by simp⟩

theorem ldI (nnn : Addr12) : Statement (.ldI nnn) :=
  ⟨_, rfl, by simp [rowMatches_nibbles, encode], by simp [encode]⟩

theorem addI (x : Nibble) : Statement (.addI x) :=
  ⟨_, rfl, by simp [rowMatches_nibbles, encode], by simp [encode]⟩

theorem rnd (x : Nibble) (nn : Byte) : Statement (.rnd x nn) :=
  ⟨_, rfl, by simp [rowMatches_nibbles, encode], by simp [encode]⟩

theorem ldFont (x : Nibble) : Statement (.ldFont x) :=
  ⟨_, rfl, by simp [rowMatches_nibbles, encode], by simp [encode]⟩

theorem cls : Statement (.cls) :=
  ⟨_, rfl, by simp [rowMatches_nibbles, encode], by simp⟩

theorem drw (x : Nibble) (y : Nibble) (n : Nibble) : Statement (.drw x y n) :=
  ⟨_, rfl, by simp [rowMatches_nibbles, encode], by simp [encode]⟩

theorem skp (x : Nibble) : Statement (.skp x) :=
  ⟨_, rfl, by simp [rowMatches_nibbles, encode], by simp [encode]⟩

theorem sknp (x : Nibble) : Statement (.sknp x) :=
  ⟨_, rfl, by simp [rowMatches_nibbles, encode], by simp [encode]⟩

theorem ldKey (x : Nibble) : Statement (.ldKey x) :=
  ⟨_, rfl, by simp [rowMatches_nibbles, encode], by simp [encode]⟩

theorem ldVxDT (x : Nibble) : Statement (.ldVxDT x) :=
  ⟨_, rfl, by simp [rowMatches_nibbles, encode], by simp [encode]⟩

theorem ldDTVx (x : Nibble) : Statement (.ldDTVx x) :=
  ⟨_, rfl, by simp [rowMatches_nibbles, encode], by simp [encode]⟩

theorem ldSTVx (x : Nibble) : Statement (.ldSTVx x) :=
  ⟨_, rfl, by simp [rowMatches_nibbles, encode], by simp [encode]⟩

theorem ldBcd (x : Nibble) : Statement (.ldBcd x) :=
  ⟨_, rfl, by simp [rowMatches_nibbles, encode], by simp [encode]⟩

theorem storeRegs (x : Nibble) : Statement (.storeRegs x) :=
  ⟨_, rfl, by simp [rowMatches_nibbles, encode], by simp [encode]⟩

theorem loadRegs (x : Nibble) : Statement (.loadRegs x) :=
  ⟨_, rfl, by simp [rowMatches_nibbles, encode], by simp [encode]⟩

theorem sys (nnn : Addr12) : Statement (.sys nnn) := by
  exact ⟨sysRow, rfl, by simp [sysRow, rowMatches_nibbles, encode], by simp [sysRow, encode]⟩

/-- Every instruction's encoding lies in its row. -/
theorem all (i : Instr) : Statement i := by
  cases i with
  | ldImm x nn => exact ldImm x nn
  | addImm x nn => exact addImm x nn
  | ldReg x y => exact ldReg x y
  | orReg x y => exact orReg x y
  | andReg x y => exact andReg x y
  | xorReg x y => exact xorReg x y
  | addReg x y => exact addReg x y
  | subReg x y => exact subReg x y
  | shr x y => exact shr x y
  | subn x y => exact subn x y
  | shl x y => exact shl x y
  | jp nnn => exact jp nnn
  | seImm x nn => exact seImm x nn
  | sneImm x nn => exact sneImm x nn
  | seReg x y => exact seReg x y
  | sneReg x y => exact sneReg x y
  | jpV0 nnn => exact jpV0 nnn
  | call nnn => exact call nnn
  | ret => exact ret
  | ldI nnn => exact ldI nnn
  | addI x => exact addI x
  | rnd x nn => exact rnd x nn
  | ldFont x => exact ldFont x
  | cls => exact cls
  | drw x y n => exact drw x y n
  | skp x => exact skp x
  | sknp x => exact sknp x
  | ldKey x => exact ldKey x
  | ldVxDT x => exact ldVxDT x
  | ldDTVx x => exact ldDTVx x
  | ldSTVx x => exact ldSTVx x
  | ldBcd x => exact ldBcd x
  | storeRegs x => exact storeRegs x
  | loadRegs x => exact loadRegs x
  | sys nnn => exact sys nnn

end Sys2Proof.Laws.EncodesInRow
end

