-- ==== Sys2Proof/Laws/Step.lean ====
section
/-! SUPPORT. What a Cycle and a step can do, said once; the bookkeeping of the driver's calls; the ports. -/

namespace Sys2Proof.Machine

/-! ## Bookkeeping -/

@[simp] theorem cycleServed_mem (s : State) : (cycleServed s).mem = s.mem := by
  unfold cycleServed; split <;> rfl
@[simp] theorem cycleServed_x (s : State) : (cycleServed s).x = s.x := by
  unfold cycleServed; split <;> rfl
@[simp] theorem cycleServed_I (s : State) : (cycleServed s).I = s.I := by
  unfold cycleServed; split <;> rfl
@[simp] theorem cycleServed_pc (s : State) : (cycleServed s).pc = s.pc := by
  unfold cycleServed; split <;> rfl
@[simp] theorem cycleServed_stack (s : State) : (cycleServed s).stack = s.stack := by
  unfold cycleServed; split <;> rfl
@[simp] theorem cycleServed_sp (s : State) : (cycleServed s).sp = s.sp := by
  unfold cycleServed; split <;> rfl
@[simp] theorem cycleServed_DT (s : State) : (cycleServed s).DT = s.DT := by
  unfold cycleServed; split <;> rfl
@[simp] theorem cycleServed_ST (s : State) : (cycleServed s).ST = s.ST := by
  unfold cycleServed; split <;> rfl
@[simp] theorem cycleServed_FB (s : State) : (cycleServed s).FB = s.FB := by
  unfold cycleServed; split <;> rfl
@[simp] theorem cycleServed_waiting (s : State) : (cycleServed s).waiting = s.waiting := by
  unfold cycleServed; split <;> rfl
@[simp] theorem cycleServed_waitKeys (s : State) : (cycleServed s).waitKeys = s.waitKeys := by
  unfold cycleServed; split <;> rfl
@[simp] theorem cycleServed_halted (s : State) : (cycleServed s).halted = s.halted := by
  unfold cycleServed; split <;> rfl
@[simp] theorem cycleServed_params (s : State) : (cycleServed s).params = s.params := by
  unfold cycleServed; split <;> rfl
@[simp] theorem cycleServed_draws (s : State) : (cycleServed s).draws = s.draws := by
  unfold cycleServed; split <;> rfl
@[simp] theorem cycleServed_reg (s : State) (q : Nibble) : (cycleServed s).reg q = s.reg q := by
  unfold cycleServed; split <;> rfl

@[simp] theorem openTicks_mem (s : State) : (openTicks s).mem = s.mem := rfl
@[simp] theorem openTicks_x (s : State) : (openTicks s).x = s.x := rfl
@[simp] theorem openTicks_I (s : State) : (openTicks s).I = s.I := rfl
@[simp] theorem openTicks_pc (s : State) : (openTicks s).pc = s.pc := rfl
@[simp] theorem openTicks_stack (s : State) : (openTicks s).stack = s.stack := rfl
@[simp] theorem openTicks_sp (s : State) : (openTicks s).sp = s.sp := rfl
@[simp] theorem openTicks_FB (s : State) : (openTicks s).FB = s.FB := rfl
@[simp] theorem openTicks_waiting (s : State) : (openTicks s).waiting = s.waiting := rfl
@[simp] theorem openTicks_waitKeys (s : State) : (openTicks s).waitKeys = s.waitKeys := rfl
@[simp] theorem openTicks_halted (s : State) : (openTicks s).halted = s.halted := rfl
@[simp] theorem openTicks_params (s : State) : (openTicks s).params = s.params := rfl
@[simp] theorem openTicks_calls (s : State) : (openTicks s).calls = s.calls := rfl
@[simp] theorem openTicks_openCalls (s : State) : (openTicks s).openCalls = s.openCalls := rfl
@[simp] theorem openTicks_draws (s : State) : (openTicks s).draws = s.draws := rfl
@[simp] theorem openTicks_started (s : State) : (openTicks s).started = s.started := rfl
@[simp] theorem openTicks_reg (s : State) (q : Nibble) : (openTicks s).reg q = s.reg q := rfl

@[simp] theorem State.beforeCycle_mem (s : State) : (s.beforeCycle).mem = s.mem := by
  unfold State.beforeCycle; split <;> rfl
@[simp] theorem State.beforeCycle_x (s : State) : (s.beforeCycle).x = s.x := by
  unfold State.beforeCycle; split <;> rfl
@[simp] theorem State.beforeCycle_I (s : State) : (s.beforeCycle).I = s.I := by
  unfold State.beforeCycle; split <;> rfl
@[simp] theorem State.beforeCycle_pc (s : State) : (s.beforeCycle).pc = s.pc := by
  unfold State.beforeCycle; split <;> rfl
@[simp] theorem State.beforeCycle_stack (s : State) : (s.beforeCycle).stack = s.stack := by
  unfold State.beforeCycle; split <;> rfl
@[simp] theorem State.beforeCycle_sp (s : State) : (s.beforeCycle).sp = s.sp := by
  unfold State.beforeCycle; split <;> rfl
@[simp] theorem State.beforeCycle_FB (s : State) : (s.beforeCycle).FB = s.FB := by
  unfold State.beforeCycle; split <;> rfl
@[simp] theorem State.beforeCycle_waiting (s : State) : (s.beforeCycle).waiting = s.waiting := by
  unfold State.beforeCycle; split <;> rfl
@[simp] theorem State.beforeCycle_waitKeys (s : State) : (s.beforeCycle).waitKeys = s.waitKeys := by
  unfold State.beforeCycle; split <;> rfl
@[simp] theorem State.beforeCycle_halted (s : State) : (s.beforeCycle).halted = s.halted := by
  unfold State.beforeCycle; split <;> rfl
@[simp] theorem State.beforeCycle_params (s : State) : (s.beforeCycle).params = s.params := by
  unfold State.beforeCycle; split <;> rfl
@[simp] theorem State.beforeCycle_calls (s : State) : (s.beforeCycle).calls = s.calls := by
  unfold State.beforeCycle; split <;> rfl
@[simp] theorem State.beforeCycle_openCalls (s : State) : (s.beforeCycle).openCalls = s.openCalls := by
  unfold State.beforeCycle; split <;> rfl
@[simp] theorem State.beforeCycle_draws (s : State) : (s.beforeCycle).draws = s.draws := by
  unfold State.beforeCycle; split <;> rfl
@[simp] theorem State.beforeCycle_started (s : State) : (s.beforeCycle).started = s.started := by
  unfold State.beforeCycle; split <;> rfl
@[simp] theorem State.beforeCycle_reg (s : State) (q : Nibble) : (s.beforeCycle).reg q = s.reg q := by
  unfold State.beforeCycle; split <;> rfl

@[simp] theorem tick_mem (s : State) : (tick s).mem = s.mem := rfl
@[simp] theorem tick_x (s : State) : (tick s).x = s.x := rfl
@[simp] theorem tick_I (s : State) : (tick s).I = s.I := rfl
@[simp] theorem tick_pc (s : State) : (tick s).pc = s.pc := rfl
@[simp] theorem tick_stack (s : State) : (tick s).stack = s.stack := rfl
@[simp] theorem tick_sp (s : State) : (tick s).sp = s.sp := rfl
@[simp] theorem tick_FB (s : State) : (tick s).FB = s.FB := rfl
@[simp] theorem tick_waiting (s : State) : (tick s).waiting = s.waiting := rfl
@[simp] theorem tick_waitKeys (s : State) : (tick s).waitKeys = s.waitKeys := rfl
@[simp] theorem tick_halted (s : State) : (tick s).halted = s.halted := rfl
@[simp] theorem tick_params (s : State) : (tick s).params = s.params := rfl
@[simp] theorem tick_calls (s : State) : (tick s).calls = s.calls := rfl
@[simp] theorem tick_openCalls (s : State) : (tick s).openCalls = s.openCalls := rfl
@[simp] theorem tick_draws (s : State) : (tick s).draws = s.draws := rfl
@[simp] theorem tick_started (s : State) : (tick s).started = s.started := rfl
@[simp] theorem tick_reg (s : State) (q : Nibble) : (tick s).reg q = s.reg q := rfl

@[simp] theorem cycleServed_calls (s : State) : (cycleServed s).calls = s.calls.tail := by
  unfold cycleServed
  split <;> simp_all

@[simp] theorem cycleServed_started (s : State) : (cycleServed s).started = true := by
  unfold cycleServed
  split <;> rfl

/-- A served Cycle changes the model's own inputs only. -/
theorem cycleServed_frame (s : State) : OnlyChanges [.inputs] s (cycleServed s) := by
  intro p hp
  cases p <;> simp [Unchanged] at hp ⊢

/-- The free ticks change the timers only. -/
theorem beforeCycle_frame (s : State) : OnlyChanges [.delayTimer, .soundTimer] s s.beforeCycle := by
  intro p hp
  cases p <;> simp [Unchanged] at hp ⊢

/-! ## A Cycle (40_execution_cycle.md R95) -/

/-- Everything a Cycle that makes a step can do. -/
theorem cycle_cases {s t : State} (h : cycle s = .next t) :
    s.halted = none ∧
      ((∃ e, fetch s = .error e ∧ t = takeError e s) ∨
       (∃ op e, fetch s = .ok op ∧ decodeOp op = .error e ∧ t = takeError (.unknownInstruction op) s) ∨
       (∃ op i, fetch s = .ok op ∧ decodeOp op = .ok i ∧ exec i s = .next t)) := by
  unfold cycle at h
  split at h
  · cases h
  · rename_i hh
    refine ⟨hh, ?_⟩
    split at h
    · rename_i e he
      exact .inl ⟨e, he, by cases h; rfl⟩
    · rename_i op hop
      split at h
      · rename_i e he
        exact .inr (.inl ⟨op, e, hop, he, by cases h; rfl⟩)
      · rename_i i hi
        exact .inr (.inr ⟨op, i, hop, hi, h⟩)

/-- A Cycle of a machine that is not halted runs the instruction fetched. -/
theorem cycle_runs {s : State} {op : Word} {i : Instr} (hh : s.halted = none) (hf : fetch s = .ok op)
    (hd : decodeOp op = .ok i) : cycle s = exec i s := by
  simp [cycle, hh, hf, hd]

/-! ## A step (50_external_interfaces.md R200) -/

/-- A step given a Cycle. -/
theorem step_cycle {s : State} (h : s.CycleNext) : step s = afterCycle (cycle s.beforeCycle) := by
  rcases h with h | ⟨k, rest, h⟩ <;> simp [step, State.beforeCycle, h]

/-- Everything a step that comes to a next state can do. -/
theorem step_cases {s t : State} (h : step s = .next t) :
    (s.CycleNext ∧ ∃ u, cycle s.beforeCycle = .next u ∧ t = cycleServed u) ∨
    (∃ rest, s.calls = .tick :: rest ∧ t = tick { s with calls := rest }) ∨
    (∃ base bytes rest, s.calls = .load base bytes :: rest ∧ s.started = false ∧
      base.toNat + bytes.length ≤ 4096 ∧
      t = { s with calls := rest, mem := s.mem.setBytes base.toNat bytes }) ∨
    (∃ rest, s.calls = .reset :: rest ∧ t = resetMachine { s with calls := rest }) := by
  have hcycle : s.CycleNext → ∃ u, cycle s.beforeCycle = .next u ∧ t = cycleServed u := by
    intro hc
    rw [step_cycle hc] at h
    cases hu : cycle s.beforeCycle <;> simp [hu, afterCycle] at h
    exact ⟨_, rfl, h.symm⟩
  match hcalls : s.calls with
  | [] => exact .inl ⟨.inl hcalls, hcycle (.inl hcalls)⟩
  | .cycle k :: rest => exact .inl ⟨.inr ⟨k, rest, hcalls⟩, hcycle (.inr ⟨k, rest, hcalls⟩)⟩
  | .tick :: rest =>
    simp only [step, hcalls, Host.Outcome.next.injEq] at h
    exact .inr (.inl ⟨rest, rfl, h.symm⟩)
  | .reset :: rest =>
    simp only [step, hcalls, Host.Outcome.next.injEq] at h
    exact .inr (.inr (.inr ⟨rest, rfl, h.symm⟩))
  | .load base bytes :: rest =>
    simp only [step, hcalls, loadCall, loadImage] at h
    refine .inr (.inr (.inl ⟨base, bytes, rest, rfl, ?_⟩))
    split at h
    · cases h
    · rename_i hst
      by_cases hfit : 4096 < base.toNat + bytes.length
      · simp [hfit] at h
      · simp only [hfit, if_false, Host.Outcome.next.injEq] at h
        exact ⟨by simpa using hst, by omega, h.symm⟩

/-! ## Timers -/

/-- A tick as an exact number: one less, floor at 0 (50_external_interfaces.md R204). -/
theorem tickTimer_toNat (v : Byte) : (tickTimer v).toNat = v.toNat - 1 := by
  unfold tickTimer
  split
  · rename_i h
    simp [h]
  · rename_i h
    have : v.toNat ≠ 0 := fun e => h (BitVec.eq_of_toNat_eq (by simpa using e))
    have := v.isLt
    rw [BitVec.toNat_sub]
    simp
    omega

/-- Several ticks as an exact number. -/
theorem tickTimerTimes_toNat (n : Nat) (v : Byte) : (tickTimerTimes n v).toNat = v.toNat - n := by
  unfold tickTimerTimes
  split
  · rename_i h
    simp [h]
  · have := v.isLt
    simp only [BitVec.toNat_ofNat]
    omega

end Sys2Proof.Machine
end

