-- ==== Sys2Proof/Tests/Slice0.lean ====
section
/-! SUPPORT. The model's own tests. Expected results come from spec/95_test_vectors.md (E, V numbers) and the rules
named; each test is one step. The witnesses at the end meet the hypotheses of the statements. -/

namespace Sys2Proof.Tests

open Sys2Proof Sys2Proof.Machine

/-! ## Helpers -/

/-- The next state of an outcome. -/
def nextOf (o : Host.Outcome State Fault Refusal) : Option State :=
  match o with
  | .next t => some t
  | .fault _ => none
  | .refused _ => none

/-- The fault of an outcome. -/
def faultOf (o : Host.Outcome State Fault Refusal) : Option Fault :=
  match o with
  | .fault e => some e
  | .next _ => none
  | .refused _ => none

/-- The refusal of an outcome. -/
def refusalOf (o : Host.Outcome State Fault Refusal) : Option Refusal :=
  match o with
  | .refused r => some r
  | .next _ => none
  | .fault _ => none

/-- `s` with a word at `pc` and a Cycle with these keys as the driver's next call. -/
def placed (keys : Word) (op : Nat) (s : State) : State := ({ s with calls := [.cycle keys] }).withFetchWord 16 op

/-- What one step of the word `op` with no key held leaves of `s`, seen through `f`. -/
def after {α : Type} (op : Nat) (s : State) (f : State → α) : Option α := (nextOf (step (placed 0 op s))).map f

/-- `s` with bytes of memory set. -/
def withBytes (s : State) (base : Nat) (bytes : List Byte) : State := s.setMem (s.mem.setBytes base bytes)

/-- The pixels of a list that are on. -/
def onAmong (s : State) (ps : List (Nat × Nat)) : List (Nat × Nat) := ps.filter fun p => pixelOn s.FB p.1 p.2

/-- `s` with pixels turned on. -/
def withPixels (s : State) (ps : List (Nat × Nat)) : State :=
  s.setFB (ps.foldl (fun fb p => setPixel fb p.1 p.2 true) s.FB)

/-- `s` with the bottom stack entry `v` and `sp = 1`. -/
def withReturn (s : State) (v : Word) : State := { s with stack := s.stack.set 0 v, sp := 1 }

abbrev s0 : State := State.reset

/-! ## Well-formedness: the one check, on each word it names -/

theorem test_wf_refuses_sys_on_cls : (Instr.sys 0x0E0).wf = false := by decide
theorem test_wf_refuses_sys_on_ret : (Instr.sys 0x0EE).wf = false := by decide
theorem test_wf_accepts_other_sys : (Instr.sys 0x0E1).wf = true := by decide

/-! ## Decoding of words written out from the spec's encodings (30_encoding.md R73, R76, 95 section 2.0) -/

theorem test_decode_arithmetic :
    decodeOp 0b0110101011111111 = .ok (.ldImm 0xA 0xFF) ∧ decodeOp 0b0111001100000001 = .ok (.addImm 3 1) ∧
    decodeOp 0b1000101010110000 = .ok (.ldReg 0xA 0xB) ∧ decodeOp 0b1000000100100001 = .ok (.orReg 1 2) ∧
    decodeOp 0b1000000100100010 = .ok (.andReg 1 2) ∧ decodeOp 0b1000000100100011 = .ok (.xorReg 1 2) ∧
    decodeOp 0b1000101010110100 = .ok (.addReg 0xA 0xB) ∧ decodeOp 0b1000000100100101 = .ok (.subReg 1 2) ∧
    decodeOp 0b1000000100100110 = .ok (.shr 1 2) ∧ decodeOp 0b1000000100100111 = .ok (.subn 1 2) ∧
    decodeOp 0b1000000100101110 = .ok (.shl 1 2) := by decide

theorem test_decode_control :
    decodeOp 0b0001001000110100 = .ok (.jp 0x234) ∧ decodeOp 0b0011010101100111 = .ok (.seImm 5 0x67) ∧
    decodeOp 0b0100010101100111 = .ok (.sneImm 5 0x67) ∧ decodeOp 0b0101010101100000 = .ok (.seReg 5 6) ∧
    decodeOp 0b1001010101100000 = .ok (.sneReg 5 6) ∧ decodeOp 0b1011001100000000 = .ok (.jpV0 0x300) ∧
    decodeOp 0b0010001000010000 = .ok (.call 0x210) ∧ decodeOp 0b0000000011101110 = .ok .ret := by decide

theorem test_decode_index_display :
    decodeOp 0b1010111111111111 = .ok (.ldI 0xFFF) ∧ decodeOp 0b1111001000011110 = .ok (.addI 2) ∧
    decodeOp 0b1100000000001111 = .ok (.rnd 0 0x0F) ∧ decodeOp 0b1111000100101001 = .ok (.ldFont 1) ∧
    decodeOp 0b0000000011100000 = .ok .cls ∧ decodeOp 0b1101000100100101 = .ok (.drw 1 2 5) := by decide

theorem test_decode_input_timers :
    decodeOp 0b1110010010011110 = .ok (.skp 4) ∧ decodeOp 0b1110010010100001 = .ok (.sknp 4) ∧
    decodeOp 0b1111001100001010 = .ok (.ldKey 3) ∧ decodeOp 0b1111000100000111 = .ok (.ldVxDT 1) ∧
    decodeOp 0b1111000100010101 = .ok (.ldDTVx 1) ∧ decodeOp 0b1111000100011000 = .ok (.ldSTVx 1) ∧
    decodeOp 0b1111000100110011 = .ok (.ldBcd 1) ∧ decodeOp 0b1111001101010101 = .ok (.storeRegs 3) ∧
    decodeOp 0b1111001101100101 = .ok (.loadRegs 3) ∧ decodeOp 0b0000000100100011 = .ok (.sys 0x123) := by decide

theorem test_decode_unknown :
    decodeOp 0x5121 = .error (.unknownWord 0x5121) ∧ decodeOp 0x8AB8 = .error (.unknownWord 0x8AB8) ∧
    decodeOp 0x9AB1 = .error (.unknownWord 0x9AB1) ∧ decodeOp 0xE09F = .error (.unknownWord 0xE09F) ∧
    decodeOp 0xF075 = .error (.unknownWord 0xF075) := by decide

/-- R70: the high byte comes first; one byte is too few. -/
theorem test_decode_bytes :
    decodeBytes [0x12, 0x34, 0x56] = .ok (.jp 0x234, [0x56]) ∧ decodeBytes [0x12] = .error .truncated := by decide

theorem test_decode_table_word : decodeTableWord 16 0x6AFF = some (.ldImm 0xA 0xFF) ∧ decodeTableWord 16 0x5121 = none := by
  decide

/-! ## Register load and arithmetic (95 section 2.1) -/

/-- V1. -/
theorem test_ldImm : after 0x6AFF s0 (fun t => (t.reg 0xA, t.pc)) = some (0xFF, 0x202) := by decide
/-- V4. -/
theorem test_addImm_wraps : after 0x7001 (s0.setReg 0 0xFF) (fun t => (t.reg 0, t.reg 15, t.pc)) = some (0, 0, 0x202) := by
  decide
/-- V3. -/
theorem test_addImm_keeps_flag : after 0x70FF (s0.setReg 15 1) (fun t => (t.reg 0, t.reg 15)) = some (0xFF, 1) := by
  decide
/-- V5. -/
theorem test_ldReg : after 0x8AF0 (s0.setReg 15 1) (fun t => (t.reg 0xA, t.reg 15)) = some (1, 1) := by decide
/-- V6. -/
theorem test_or : after 0x8121 (((s0.setReg 1 0x0F).setReg 2 0xF0).setReg 15 1) (fun t => (t.reg 1, t.reg 2, t.reg 15)) =
    some (0xFF, 0xF0, 0) := by decide
/-- V7. -/
theorem test_or_into_flag : after 0x8F11 ((s0.setReg 15 0xF0).setReg 1 0x0F) (fun t => (t.reg 15, t.reg 1)) =
    some (0, 0x0F) := by decide
/-- V8. -/
theorem test_and : after 0x8122 (((s0.setReg 1 0x3C).setReg 2 0x0F).setReg 15 1) (fun t => (t.reg 1, t.reg 15)) =
    some (0x0C, 0) := by decide
/-- V9. -/
theorem test_xor_with_flag : after 0x80F3 ((s0.setReg 0 0xFF).setReg 15 1) (fun t => (t.reg 0, t.reg 15)) =
    some (0xFE, 0) := by decide
/-- V11. -/
theorem test_addReg_carry : after 0x8014 ((s0.setReg 0 0xFF).setReg 1 1) (fun t => (t.reg 0, t.reg 1, t.reg 15)) =
    some (0, 1, 1) := by decide
/-- V14b. -/
theorem test_addReg_into_flag : after 0x8F14 ((s0.setReg 15 0x10).setReg 1 0x20) (fun t => t.reg 15) = some 0 := by decide
/-- V16. -/
theorem test_subReg_borrow : after 0x8015 ((s0.setReg 0 5).setReg 1 7) (fun t => (t.reg 0, t.reg 15)) =
    some (0xFE, 0) := by decide
/-- V17. -/
theorem test_subReg_equal : after 0x8015 ((s0.setReg 0 7).setReg 1 7) (fun t => (t.reg 0, t.reg 15)) = some (0, 1) := by
  decide
/-- V19. -/
theorem test_subn : after 0x8017 ((s0.setReg 0 5).setReg 1 7) (fun t => (t.reg 0, t.reg 1, t.reg 15)) = some (2, 7, 1) := by
  decide
/-- V20. -/
theorem test_subn_borrow : after 0x8017 ((s0.setReg 0 7).setReg 1 5) (fun t => (t.reg 0, t.reg 15)) = some (0xFE, 0) := by
  decide
/-- V21. -/
theorem test_shr_ignores_y : after 0x8206 ((s0.setReg 2 5).setReg 0 0xAA) (fun t => (t.reg 2, t.reg 0, t.reg 15)) =
    some (2, 0xAA, 1) := by decide
/-- V22b. -/
theorem test_shr_flag_register : after 0x8F06 (s0.setReg 15 2) (fun t => t.reg 15) = some 0 := by decide
/-- V23. -/
theorem test_shl : after 0x820E (s0.setReg 2 0x81) (fun t => (t.reg 2, t.reg 15)) = some (2, 1) := by decide
/-- V25. -/
theorem test_shl_no_carry : after 0x820E ((s0.setReg 2 0x40).setReg 15 1) (fun t => (t.reg 2, t.reg 15)) =
    some (0x80, 0) := by decide

/-! ## Control transfer (95 section 2.2) -/

/-- V26. -/
theorem test_jp : after 0x1ABC s0 (fun t => t.pc) = some 0xABC := by decide
/-- V29, V29b. -/
theorem test_seImm : after 0x332A (s0.setReg 3 0x2A) (fun t => t.pc) = some 0x204 ∧
    after 0x332B (s0.setReg 3 0x2A) (fun t => t.pc) = some 0x202 := by decide
/-- V30, V30b. -/
theorem test_sneImm : after 0x432A (s0.setReg 3 0x2A) (fun t => t.pc) = some 0x202 ∧
    after 0x4300 (s0.setReg 3 0x2A) (fun t => t.pc) = some 0x204 := by decide
/-- V31, V31b. -/
theorem test_seReg : after 0x5120 ((s0.setReg 1 7).setReg 2 7) (fun t => t.pc) = some 0x204 ∧
    after 0x5120 ((s0.setReg 1 7).setReg 2 8) (fun t => t.pc) = some 0x202 := by decide
/-- V32, V32b. -/
theorem test_sneReg : after 0x9120 ((s0.setReg 1 7).setReg 2 8) (fun t => t.pc) = some 0x204 ∧
    after 0x9120 ((s0.setReg 1 7).setReg 2 7) (fun t => t.pc) = some 0x202 := by decide
/-- V35. -/
theorem test_jpV0_uses_register_0 : after 0xB2FF ((s0.setReg 0 0xFF).setReg 2 0x10) (fun t => t.pc) = some 0x3FE := by decide
/-- V36, first cycle. -/
theorem test_jpV0_past_memory : after 0xBFFF (s0.setReg 0 0xFF) (fun t => (t.pc, t.halted)) = some (0x10FE, none) := by
  decide
/-- V37. -/
theorem test_call : after 0x2210 (s0.setPc 0x208) (fun t => (t.stack[0], t.sp, t.pc)) = some (0x208, 1, 0x210) := by decide
/-- V40. -/
theorem test_call_overflow : after 0x2300 { s0 with sp := 16 } (fun t => (t.halted, t.pc, t.sp)) =
    some (some .stackOverflow, 0x200, 16) := by decide
/-- V38. -/
theorem test_ret : after 0x00EE (withReturn (s0.setPc 0x214) 0x208) (fun t => (t.sp, t.pc)) = some (0, 0x20A) := by decide
/-- V39. -/
theorem test_ret_underflow : after 0x00EE s0 (fun t => (t.halted, t.pc, t.sp)) =
    some (some .stackUnderflow, 0x200, 0) := by decide
/-- V83. -/
theorem test_sys : after 0x0123 s0 (fun t => (t.halted, t.pc)) = some (some (.unknownInstruction 0x0123), 0x200) := by decide

/-! ## Index, random, font (95 section 2.3) -/

/-- V41. -/
theorem test_ldI : after 0xAFFF s0 (fun t => (t.I, t.pc)) = some (0xFFF, 0x202) := by decide
/-- V43. -/
theorem test_addI_wraps : after 0xF01E ((s0.setI 0xFFFF).setReg 0 2) (fun t => (t.I, t.reg 15)) = some (1, 0) := by decide
/-- V46: a zero mask gives 0 whatever is drawn. -/
theorem test_rnd_zero_mask : (nextOf (exec (.rnd 3 0) (s0.setReg 3 7))).map (fun t => (t.reg 3, t.pc)) = some (0, 0x202) := by
  simp [exec, execRnd, finish, autoIncrement, nextOf, State.setDraws, State.setReg, State.setPc, State.reg, s0, State.reset,
    Params.default]
/-- V47, V47b. -/
theorem test_ldFont : after 0xF129 (s0.setReg 1 0x0A) (fun t => t.I) = some 0x82 ∧
    after 0xF129 (s0.setReg 1 0x0F) (fun t => t.I) = some 0x9B := by decide
/-- V48. -/
theorem test_ldFont_out_of_domain : refusalOf (step (placed 0 0xF129 (s0.setReg 1 0x10))) = some .outOfDomain := by decide

/-! ## Display (95 section 2.4) -/

/-- V49. -/
theorem test_cls : after 0x00E0 (withPixels s0 [(0, 0), (63, 31)])
    (fun t => (onAmong t [(0, 0), (63, 31)], t.pc)) = some ([], 0x202) := by decide
/-- V56: one pixel turned off, one turned on. -/
theorem test_drw_collision : after 0xD001 (withBytes (withPixels (s0.setI 0x300) [(0, 0)]) 0x300 [0xC0])
    (fun t => (onAmong t [(0, 0), (1, 0), (2, 0), (0, 1)], t.reg 15)) = some ([(1, 0)], 1) := by decide
/-- V58: an error in the second row keeps the first one. -/
theorem test_drw_past_memory : after 0xD012 (withBytes ((s0.setI 0xFFF).setReg 15 1) 0xFFF [0x80])
    (fun t => (t.halted, t.pc, t.reg 15, onAmong t [(0, 0)])) =
    some (some (.outOfRangeAccess 0x1000), 0x200, 0, [(0, 0)]) := by decide
/-- V52: six columns clipped. -/
theorem test_drawRow_clips_right : onAmong (drawRow 0xFF 62 0 s0) [(62, 0), (63, 0), (0, 0), (0, 1)] = [(62, 0), (63, 0)] := by
  decide
/-- V53: a row below the screen is clipped. -/
theorem test_drawRow_clips_bottom : onAmong (drawRow 0xFF 0 32 s0) [(0, 31), (0, 0)] = [] := by decide

/-! ## Input (95 section 2.5) -/

/-- V61, V62. -/
theorem test_skp : (nextOf (step (placed 0x0400 0xE49E (s0.setReg 4 0xA)))).map (fun t => t.pc) = some 0x204 ∧
    (nextOf (step (placed 0x0001 0xE49E (s0.setReg 4 0xA)))).map (fun t => t.pc) = some 0x202 := by decide
/-- V64. -/
theorem test_skp_out_of_domain : refusalOf (step (placed 0 0xE49E (s0.setReg 4 0x10))) = some .outOfDomain := by decide
/-- V63, V63b. -/
theorem test_sknp : (nextOf (step (placed 0x0000 0xE4A1 (s0.setReg 4 0xA)))).map (fun t => t.pc) = some 0x204 ∧
    (nextOf (step (placed 0x0400 0xE4A1 (s0.setReg 4 0xA)))).map (fun t => t.pc) = some 0x202 := by decide
/-- V66, step 1. -/
theorem test_ldKey_enters : (nextOf (step (placed 0x0002 0xF30A s0))).map (fun t => (t.waiting, t.waitKeys, t.pc)) =
    some (true, 0x0002, 0x200) := by decide
/-- V66, step 3. -/
theorem test_ldKey_ends : (nextOf (step (placed 0x0006 0xF30A (s0.setLatch true 0x0002)))).map
    (fun t => (t.reg 3, t.waiting, t.pc)) = some (2, false, 0x202) := by decide
/-- V67: the default `KEY_SELECT` of R173 for a release. -/
theorem test_keySelectDefault_release : keySelectDefault 0x0002 0x0000 = 1 := by decide

/-! ## Timers, BCD, bulk transfer (95 section 2.6) -/

/-- V68. -/
theorem test_ldVxDT : after 0xF107 (s0.setDT 0x3C) (fun t => (t.reg 1, t.pc)) = some (0x3C, 0x202) := by decide
/-- V69. -/
theorem test_ldDTVx : after 0xF015 (s0.setReg 0 0x3C) (fun t => (t.DT, t.ST)) = some (0x3C, 0) := by decide
/-- V70. -/
theorem test_ldSTVx : after 0xF018 (s0.setReg 0 5) (fun t => (t.ST, buzz t, t.DT)) = some (5, true, 0) := by decide
/-- V72. -/
theorem test_ldBcd : after 0xF033 ((s0.setI 0x300).setReg 0 0xFE)
    (fun t => ((List.range 4).map fun k => t.mem.byteAt (0x300 + k), t.I, t.pc)) = some ([2, 5, 4, 0], 0x300, 0x202) := by
  decide
/-- V74. -/
theorem test_ldBcd_past_memory : after 0xF033 ((s0.setI 0xFFE).setReg 0 0xFE)
    (fun t => (t.halted, t.pc, t.mem.byteAt 0xFFE, t.mem.byteAt 0xFFF)) =
    some (some (.outOfRangeAccess 0x1000), 0x200, 2, 5) := by decide
/-- V75. -/
theorem test_storeRegs : after 0xF355 (((((s0.setI 0x300).setReg 0 1).setReg 1 2).setReg 2 3).setReg 3 4)
    (fun t => ((List.range 5).map fun k => t.mem.byteAt (0x300 + k), t.I)) = some ([1, 2, 3, 4, 0], 0x304) := by decide
/-- V77, on the ends of the range. -/
theorem test_loadRegs : after 0xFF65 (withBytes (s0.setI 0x300) 0x300
      [0x10, 0x11, 0x12, 0x13, 0x14, 0x15, 0x16, 0x17, 0x18, 0x19, 0x1A, 0x1B, 0x1C, 0x1D, 0x1E, 0x1F])
    (fun t => (t.reg 0, t.reg 7, t.reg 15, t.I)) = some (0x10, 0x17, 0x1F, 0x310) := by decide
/-- V78. -/
theorem test_loadRegs_past_memory : after 0xFF65 (withBytes (s0.setI 0xFF8) 0xFF8
      [0xA0, 0xA1, 0xA2, 0xA3, 0xA4, 0xA5, 0xA6, 0xA7])
    (fun t => (t.halted, t.reg 0, t.reg 7, t.reg 8, t.I)) =
    some (some (.outOfRangeAccess 0x1000), 0xA0, 0xA7, 0, 0xFF8) := by decide

/-! ## The cycle, errors, and the driver's other calls (95 section 2.7) -/

/-- V80. -/
theorem test_fetch_low_byte : (nextOf (step { s0 with pc := 0xFFF, calls := [.cycle 0] })).map (fun t => (t.halted, t.pc)) =
    some (some (.outOfRangeAccess 0x1000), 0xFFF) := by decide
/-- V81: empty memory holds no instruction. -/
theorem test_empty_memory : (nextOf (step { s0 with calls := [.cycle 0] })).map (fun t => (t.halted, t.pc)) =
    some (some (.unknownInstruction 0), 0x200) := by decide
/-- V85. -/
theorem test_halted : faultOf (step { s0 with calls := [.cycle 0], halted := some .stackUnderflow }) =
    some .stackUnderflow := by decide
/-- V89: a tick during a key wait. -/
theorem test_tick : (nextOf (step { s0 with DT := 5, ST := 0, waiting := true, calls := [.tick] })).map
    (fun t => (t.DT, t.ST, t.waiting)) = some (4, 0, true) := by decide
/-- V86, V86b. -/
theorem test_load : faultOf (step { s0 with calls := [.load 0xFFF [1, 2]] }) = some (.outOfRangeAccess 0x1000) ∧
    (nextOf (step { s0 with calls := [.load 0xFFE [1, 2]] })).map (fun t => (t.mem.byteAt 0xFFE, t.mem.byteAt 0xFFF)) =
      some (1, 2) := by decide
/-- V88: Reset of a halted machine. -/
theorem test_reset_call : (nextOf (step { s0 with halted := some .stackOverflow, pc := 0x300, calls := [.reset] })).map
    (fun t => (t.halted, t.pc, t.mem)) = some (none, 0x200, ⟨[]⟩) := by decide
/-- R35, R229: a pixel outside the screen. -/
theorem test_getPixel_outside : getPixel Screen.blank 64 0 = .error (.invalidPixelAccess 64 0) := by decide
/-- R253, V47: glyph 10 of the font image stands 50 bytes above `FONT_BASE`. -/
theorem test_font_image : Config.fontImage.length = 80 ∧ (Config.fontImage.drop 50).take 5 = [0xF0, 0x90, 0xF0, 0x90, 0x90] := by
  decide
/-- A placed word runs as the first instruction, also when no Cycle is listed (log 16). -/
theorem test_withFetchWord : (nextOf (step (s0.withFetchWord 16 0x6AFF))).map (fun t => t.reg 0xA) = some 0xFF := by
  decide

/-! ## Witnesses: concrete states and operands that meet the hypotheses of the statements, clause by clause -/

/-- The listed-Cycle state of the witnesses: word `op` at `pc`. -/
abbrev sAt (pc : Word) (op : Nat) : State := placed 0 op (s0.setPc pc)

/-- A state in the wait of an FX0A. -/
abbrev sWait : State := { placed 0x0002 0xF30A s0 with waiting := true, waitKeys := 0x0002, started := true }

theorem witness_DecodeOfEncodeIsInstruction : (Instr.drw 1 2 15).wf = true ∧ (Instr.sys 0x0EF).wf = true := by decide

theorem witness_EncodeOfDecodedIsWord : decodeOp 0xFF65 = .ok (.loadRegs 15) ∧ decodeOp 0x00E1 = .ok (.sys 0x0E1) := by decide

theorem witness_WordsWithoutHandler : (∀ i, decodeOp ((0x8#4 : Nibble) ++ (0#4 : Nibble) ++ (0#4 : Nibble) ++ (0xF#4 : Nibble)) ≠ .ok i) ∧
    decodeOp ((0x0#4 : Nibble) ++ (0#4 : Nibble) ++ (0xE#4 : Nibble) ++ (1#4 : Nibble)) = .ok (.sys 0x0E1) :=
  ⟨fun i h => absurd
    (h.symm.trans (show decodeOp ((0x8#4 : Nibble) ++ (0#4 : Nibble) ++ (0#4 : Nibble) ++ (0xF#4 : Nibble)) =
      .error (.unknownWord 0x800F) by decide)) (by simp), by decide⟩

/-- For LogicOperationsClearFlag, AddRegistersSetsCarry, SubtractionsSetNotBorrow, ShiftsInPlaceSetShiftedOutBit. -/
theorem witness_FlagInstructions : (14#4 : Nibble) ≠ 15#4 := by decide

theorem witness_CallPushesOwnAddress : ({ s0 with sp := 15 } : State).sp.val < 16 ∧ ({ s0 with sp := 16 } : State).sp.val = 16 := by
  decide

theorem witness_ReturnPopsPastCall : (0 < (withReturn s0 0x208).sp.val ∧
      (withReturn s0 0x208).stack[(withReturn s0 0x208).sp.val - 1]? = some 0x208) ∧
    (0 < ({ s0 with sp := 16 } : State).sp.val ∧
      ({ s0 with sp := 16 } : State).stack[({ s0 with sp := 16 } : State).sp.val - 1]? = some 0) ∧ s0.sp.val = 0 := by decide

theorem witness_ReturnGoesPastMatchingCall : ({ s0 with sp := 15 } : State).sp.val < 16 ∧
    (nextOf (exec (.call 0x300) { s0 with sp := 15 })).map (fun t => t.waiting) = some false := by decide

theorem witness_StackDisciplineSixteenDeep : s0.sp.val = 0 ∧ s0.halted = none ∧
    (List.replicate 16 (0x200 : Addr12)).length = 16 := by decide

theorem witness_SysRaisesUnknownInstruction : (0x0E1 : Addr12) ≠ 0x0E0#12 ∧ (0x0E1 : Addr12) ≠ 0x0EE#12 := by decide

theorem witness_FontAddressOfHexDigit : ((s0.setReg 1 15).reg 1).toNat ≤ 15 ∧ 15 < ((s0.setReg 1 16).reg 1).toNat := by decide

theorem witness_DrawTogglesSpritePixels :
    (s0.setI 0xFF1).I.toNat + (15 : Nibble).toNat ≤ 4096 ∧
    ((s0.setI 0xFFFF).I.toNat + (0 : Nibble).toNat ≤ 4096 ∨ (0 : Nibble) = 0#4) ∧
    (4096 < (s0.setI 0xFFF).I.toNat + (2 : Nibble).toNat ∧ (2 : Nibble) ≠ 0#4) ∧
    (4096 < (s0.setI 0x1000).I.toNat + (1 : Nibble).toNat ∧ (1 : Nibble) ≠ 0#4) := by decide

theorem witness_DoubleDrawRestoresScreen : (withBytes (s0.setI 0x300) 0x300 [0x80]).I.toNat + (1 : Nibble).toNat ≤ 4096 ∧
    (nextOf (exec (.drw 0 1 1) (withBytes (s0.setI 0x300) 0x300 [0x80]))).map (fun t => (t.reg 0, t.reg 1)) =
      some ((withBytes (s0.setI 0x300) 0x300 [0x80]).reg 0, (withBytes (s0.setI 0x300) 0x300 [0x80]).reg 1) := by decide

theorem witness_KeySkipsTestOneKey : ((s0.setReg 4 15).reg 4).toNat ≤ 15 ∧ 15 < ((s0.setReg 4 16).reg 4).toNat := by decide

theorem witness_KeyWaitEndsOnKeyChange : s0.waiting = false ∧
    (({ sWait with calls := [.cycle 0x0006] } : State).waiting = true ∧
      ({ sWait with calls := [.cycle 0x0006] } : State).keys ≠ sWait.waitKeys) ∧
    (sWait.waiting = true ∧ sWait.keys = sWait.waitKeys) := by decide

theorem witness_KeySelectOfSinglePress : isSinglePress 0x0002 0x8002 15 = true ∧
    ((0x0006 &&& ~~~0x0002 : Word).getLsbD 2 = true ∧ ∀ j < 2, (0x0006 &&& ~~~0x0002 : Word).getLsbD j = false) ∧
    ((0x0000 &&& ~~~0x0006 : Word) = 0#16 ∧ (0x0006 ^^^ 0x0000 : Word).getLsbD 1 = true ∧
      ∀ j < 1, (0x0006 ^^^ 0x0000 : Word).getLsbD j = false) := by decide

theorem witness_BcdStoresThreeDigits : (s0.setI 0xFFD).MemCanonical ∧ (s0.setI 0xFFD).I.toNat + 3 ≤ 4096 ∧
    4096 < (s0.setI 0xFFE).I.toNat + 3 :=
  ⟨rfl, by decide, by decide⟩

theorem witness_BulkStoreWritesRegisters : (s0.setI 0xFF0).MemCanonical ∧ (3 : Nat) ≤ (15 : Nibble).toNat ∧
    (s0.setI 0xFF0).I.toNat + (15 : Nibble).toNat < 4096 ∧ 4096 ≤ (s0.setI 0xFF1).I.toNat + (15 : Nibble).toNat :=
  ⟨rfl, by decide, by decide, by decide⟩

theorem witness_BulkLoadReadsRegisters : (s0.setI 0xFF0).I.toNat + (15 : Nibble).toNat < 4096 ∧
    4096 ≤ (s0.setI 0xFF1).I.toNat + (15 : Nibble).toNat := by decide

theorem witness_BulkStoreThenLoadRestores : (s0.setI 0xFF0).MemCanonical ∧
    (s0.setI 0xFF0).I.toNat + (15 : Nibble).toNat < 4096 :=
  ⟨rfl, by decide⟩

theorem witness_BulkStoreThenLoadRestores_reload : ∃ t, exec (.storeRegs 3) (s0.setI 0x300) = .next t ∧
    (t.setI 0x300).mem = t.mem ∧ (t.setI 0x300).I = (s0.setI 0x300).I := ⟨_, rfl, rfl, rfl⟩

theorem witness_StoreIsSeenByNextFetch : (s0.setI 0x202).MemCanonical ∧ (s0.setI 0x202).waiting = false ∧
    (s0.setI 0x202).I = (s0.setI 0x202).pc + 2#16 ∧ 1 ≤ (1 : Nibble).toNat ∧
    (s0.setI 0x202).I.toNat + (1 : Nibble).toNat < 4096 :=
  ⟨rfl, by decide, by decide, by decide, by decide⟩

theorem witness_StepRunsDecodedInstruction : (sAt 0xFFE 0x6AFF).CycleNext ∧ (sAt 0xFFE 0x6AFF).halted = none ∧
    (sAt 0xFFE 0x6AFF).pc.toNat ≤ 4094 ∧
    decodeOp ((sAt 0xFFE 0x6AFF).mem.byteAt (sAt 0xFFE 0x6AFF).pc.toNat ++
      (sAt 0xFFE 0x6AFF).mem.byteAt ((sAt 0xFFE 0x6AFF).pc.toNat + 1)) = .ok (.ldImm 0xA 0xFF) ∧
    ∃ t, exec (.ldImm 0xA 0xFF) (sAt 0xFFE 0x6AFF).beforeCycle = .next t :=
  ⟨.inr ⟨0, [], rfl⟩, rfl, by decide, by decide, _, rfl⟩

theorem witness_StepRunsDecodedInstruction_open : (s0.withFetchWord 16 0x6AFF).CycleNext ∧
    (s0.withFetchWord 16 0x6AFF).calls = [] := ⟨.inl rfl, rfl⟩

theorem witness_StepRunsDecodedInstruction_refused :
    exec (.ldFont 1) (placed 0 0xF129 (s0.setReg 1 16)).beforeCycle = .refused .outOfDomain := rfl

theorem witness_FetchFaultsPastMemory : (({ s0 with pc := 0xFFF } : State).CycleNext ∧ s0.halted = none ∧
      4095 ≤ ({ s0 with pc := 0xFFF } : State).pc.toNat) ∧
    (({ s0 with pc := 0x1000 } : State).CycleNext ∧ 4095 ≤ ({ s0 with pc := 0x1000 } : State).pc.toNat) :=
  ⟨⟨.inl rfl, rfl, by decide⟩, .inl rfl, by decide⟩

theorem witness_UnmatchedWordRaisesUnknownInstruction : (sAt 0xFFE 0x5121).CycleNext ∧ (sAt 0xFFE 0x5121).halted = none ∧
    (sAt 0xFFE 0x5121).pc.toNat ≤ 4094 ∧
    (0x5121 : Word) = (sAt 0xFFE 0x5121).mem.byteAt (sAt 0xFFE 0x5121).pc.toNat ++
      (sAt 0xFFE 0x5121).mem.byteAt ((sAt 0xFFE 0x5121).pc.toNat + 1) ∧
    (∀ r ∈ definedRows, rowMatches 0x5121 r = false) ∧ ∀ r ∈ definedRows, rowMatches 0x0123 r = false :=
  ⟨.inr ⟨0, [], rfl⟩, rfl, by decide, by decide, by decide, by decide⟩

/-- A halted machine whose next call is a Cycle. -/
abbrev sHalted : State := { s0 with halted := some .stackUnderflow, calls := [.cycle 0] }

theorem witness_HaltedMachineHasNoCycle : sHalted.CycleNext ∧ sHalted.halted = some .stackUnderflow :=
  ⟨.inr ⟨0, [], rfl⟩, rfl⟩

theorem witness_OnlyResetLeavesHalted : sHalted.halted = some .stackUnderflow ∧
    (∃ t, step { sHalted with calls := [.tick] } = .next t) ∧ ∃ t, step { sHalted with calls := [.reset] } = .next t :=
  ⟨rfl, ⟨_, rfl⟩, _, rfl⟩

theorem witness_ErrorsRaisedByInstruction : s0.halted = none ∧
    (nextOf (exec (.call 0x300) { s0 with sp := 16 })).map (fun t => t.halted) = some (some .stackOverflow) ∧
    (nextOf (exec .ret s0)).map (fun t => t.halted) = some (some .stackUnderflow) ∧
    (nextOf (exec (.sys 0) s0)).map (fun t => t.halted) = some (some (.unknownInstruction 0)) ∧
    (nextOf (exec (.loadRegs 0) (s0.setI 0x1000))).map (fun t => t.halted) = some (some (.outOfRangeAccess 4096)) := by decide

theorem witness_RefusalsAreOutOfDomain : refusalOf (exec (.sknp 1) (s0.setReg 1 16)) = some .outOfDomain := by decide

theorem witness_RegistersWrittenAsListed : (∃ t, exec (.addReg 1 2) s0 = .next t) ∧ mayWriteReg (.addReg 1 2) 2 = false :=
  ⟨⟨_, rfl⟩, rfl⟩

theorem witness_StateWrittenOnlyByItsInstructions : ∃ t, exec (.storeRegs 3) (s0.setI 0x300) = .next t := ⟨_, rfl⟩

theorem witness_TickDecrementsBothTimers : ({ s0 with DT := 0, ST := 0xFF, calls := [.tick] } : State).calls = .tick :: [] := rfl

theorem witness_ResetCallRestoresResetValues :
    ({ s0 with halted := some .stackOverflow, calls := [.reset, .tick] } : State).calls = .reset :: [.tick] := rfl

theorem witness_LoadCopiesImageOrFails : (s0.MemCanonical ∧
      ({ s0 with calls := [.load 0xFFE [1, 2]] } : State).calls = .load 0xFFE [1, 2] :: []) ∧
    (s0.started = false ∧ (0xFFE : Word).toNat + [1, 2].length ≤ 4096) ∧
    (s0.started = false ∧ 4096 < (0xFFF : Word).toNat + [1, 2].length) ∧
    ({ s0 with started := true } : State).started = true :=
  ⟨⟨rfl, rfl⟩, ⟨rfl, by decide⟩, ⟨rfl, by decide⟩, rfl⟩

theorem witness_PixelPortsAtScreenEdge : ¬((64 : Nat) < 64 ∧ (0 : Nat) < 32) ∧ ((63 : Nat) < 64 ∧ (31 : Nat) < 32) ∧
    ((62 : Nat), (31 : Nat)) ≠ (63, 31) := by decide

theorem witness_StepKeepsMemoryCanonical : (placed 0 0xF355 (s0.setI 0x300)).MemCanonical ∧
    ∃ t, step (placed 0 0xF355 (s0.setI 0x300)) = .next t := ⟨rfl, _, rfl⟩

theorem witness_StepKeepsProgramCounterBounded : (placed 0 0xBFFF (s0.setReg 0 0xFF)).PcBounded ∧
    ∃ t, step (placed 0 0xBFFF (s0.setReg 0 0xFF)) = .next t ∧ t.pc = 0x10FE :=
  ⟨⟨by decide, by decide, fun k _ hk => absurd hk (Nat.not_lt_zero k)⟩, _, rfl, rfl⟩

theorem witness_StepKeepsWaitAtKeyInstruction : sWait.WaitsAtKeyInstr ∧ sWait.waiting = true ∧
    ∃ t, step sWait = .next t ∧ t.waiting = true :=
  ⟨fun _ => ⟨rfl, rfl, 3, by decide⟩, rfl, _, rfl, rfl⟩

theorem witness_SelfJumpStaysPut : (sAt 0x210 0x1210).AtSelfJump := ⟨⟨rfl, rfl⟩, 0x210, rfl, by decide⟩

end Sys2Proof.Tests
end

section
/-! The family 10_state.md: what each instruction leaves alone, the invariants of memory, `pc` and the stack, the halt
record, the call stack's depth, the pixel ports and reset. -/

namespace Sys2Proof.Machine

/-! ## Frames of single updates, and frames at the end of a step -/

/-- A state is in every frame with itself. -/
theorem OnlyChanges.refl (ps : List Part) (s : State) : OnlyChanges ps s s := by
  intro p _
  cases p <;> simp [Unchanged]

/-- A frame holds for every longer list of parts. -/
theorem OnlyChanges.of_subset {s t : State} {ps rs : List Part} (h : OnlyChanges ps s t) (hsub : ps ⊆ rs) :
    OnlyChanges rs s t :=
  h.mono fun _ hp hps => hp (hsub hps)

/-- The auto-increment adds `pc` to what a handler changed. -/
theorem OnlyChanges.thenIncrement {s u : State} {ps : List Part} (h : OnlyChanges ps s u) :
    OnlyChanges (ps ++ [.pc]) s (autoIncrement u) :=
  h.trans (autoIncrement_frame u) fun _ hp => by simpa using hp

/-- The entry of an error adds the halt record to what a handler changed. -/
theorem OnlyChanges.thenError {s u : State} {ps : List Part} (h : OnlyChanges ps s u) (e : Fault) :
    OnlyChanges (ps ++ [.halt]) s (takeError e u) :=
  h.trans (takeError_frame e u) fun _ hp => by simpa using hp

theorem setReg_frame (r : Nibble) (v : Byte) (s : State) : OnlyChanges [.regs] s (s.setReg r v) :=
  regs_frame rfl

theorem setResultThenFlag_frame (x : Nibble) (v : Byte) (f : Bool) (s : State) :
    OnlyChanges [.regs] s (setResultThenFlag s x v f) :=
  regs_frame rfl

theorem setMem_frame (m : Memory) (s : State) : OnlyChanges [.mem] s (s.setMem m) := by
  intro p hp
  cases p <;> simp [Unchanged] at hp ⊢

theorem setI_frame (v : Word) (s : State) : OnlyChanges [.index] s (s.setI v) := by
  intro p hp
  cases p <;> simp [Unchanged] at hp ⊢

theorem setPc_frame (v : Word) (s : State) : OnlyChanges [.pc] s (s.setPc v) := by
  intro p hp
  cases p <;> simp [Unchanged] at hp ⊢

theorem setDT_frame (v : Byte) (s : State) : OnlyChanges [.delayTimer] s (s.setDT v) := by
  intro p hp
  cases p <;> simp [Unchanged] at hp ⊢

theorem setST_frame (v : Byte) (s : State) : OnlyChanges [.soundTimer] s (s.setST v) := by
  intro p hp
  cases p <;> simp [Unchanged] at hp ⊢

theorem setFB_frame (fb : Screen) (s : State) : OnlyChanges [.screen] s (s.setFB fb) := by
  intro p hp
  cases p <;> simp [Unchanged] at hp ⊢

theorem setLatch_frame (w : Bool) (k : Word) (s : State) : OnlyChanges [.latch] s (s.setLatch w k) := by
  intro p hp
  cases p <;> simp [Unchanged] at hp ⊢

theorem setDraws_frame (n : Nat) (s : State) : OnlyChanges [.draws] s (s.setDraws n) := by
  intro p hp
  cases p <;> simp [Unchanged] at hp ⊢

/-- A state that differs in the stack and `pc` only, as a call and a return leave it. -/
theorem stackPc_frame {s t : State} (h : t = { s with stack := t.stack, sp := t.sp, pc := t.pc }) :
    OnlyChanges [.stack, .pc] s t := by
  intro p hp
  rw [h]
  cases p <;> simp [Unchanged, State.reg] at hp ⊢

/-! ## Instructions that end in more than one way -/

/-- FX0A changes its register and the latch only. -/
theorem keyWait_frame (x : Nibble) (s : State) : OnlyChanges [.regs, .latch] s (keyWait x s) := by
  obtain ⟨-, h⟩ | ⟨-, -, h⟩ | ⟨-, -, h⟩ := keyWait_cases x s <;> rw [h]
  · exact (setLatch_frame _ _ _).of_subset (by simp)
  · exact (setReg_frame _ _ _).trans (setLatch_frame _ _ _) (by simp)
  · exact .refl _ s

theorem keyWait_reg_other {x r : Nibble} (hne : r ≠ x) (s : State) : (keyWait x s).reg r = s.reg r := by
  obtain ⟨-, h⟩ | ⟨-, -, h⟩ | ⟨-, -, h⟩ := keyWait_cases x s <;> rw [h] <;> simp [hne]

@[simp] theorem keyWait_mem (x : Nibble) (s : State) : (keyWait x s).mem = s.mem := by
  obtain ⟨-, h⟩ | ⟨-, -, h⟩ | ⟨-, -, h⟩ := keyWait_cases x s <;> rw [h] <;> rfl

@[simp] theorem keyWait_pc (x : Nibble) (s : State) : (keyWait x s).pc = s.pc := keyWait_frame x s .pc (by simp)

@[simp] theorem advanceI_mem (x : Nibble) (s : State) : (advanceI x s).mem = s.mem := rfl
@[simp] theorem advanceI_pc (x : Nibble) (s : State) : (advanceI x s).pc = s.pc := rfl
@[simp] theorem advanceI_reg (x r : Nibble) (s : State) : (advanceI x s).reg r = s.reg r := rfl

/-- EX9E that comes to a next state is a skip. -/
theorem exec_skp_next {x : Nibble} {s t : State} (h : exec (.skp x) s = .next t) :
    ∃ c, t = autoIncrement (skipIf c s) := by
  simp only [exec, execSkp] at h
  split at h <;> cases h
  exact ⟨_, rfl⟩

/-- EXA1 that comes to a next state is a skip. -/
theorem exec_sknp_next {x : Nibble} {s t : State} (h : exec (.sknp x) s = .next t) :
    ∃ c, t = autoIncrement (skipIf c s) := by
  simp only [exec, execSknp] at h
  split at h <;> cases h
  exact ⟨_, rfl⟩

/-- FX29 that comes to a next state sets `I`. -/
theorem exec_ldFont_next {x : Nibble} {s t : State} (h : exec (.ldFont x) s = .next t) :
    ∃ v, t = autoIncrement (s.setI v) := by
  simp only [exec, execLdFont] at h
  split at h <;> cases h
  exact ⟨_, rfl⟩

/-- 2NNN pushes its own address and jumps, or overflows (42_control_transfer.md R136). -/
theorem exec_call_cases (nnn : Addr12) (s : State) :
    (∃ h : s.sp.val < 16, exec (.call nnn) s = .next { s with
      stack := s.stack.set s.sp.val s.pc h, sp := ⟨s.sp.val + 1, by omega⟩, pc := addrOperand nnn }) ∨
    (s.sp.val = 16 ∧ exec (.call nnn) s = .next (takeError .stackOverflow s)) := by
  obtain ⟨h, hp⟩ | ⟨h, hp⟩ := push_cases s.pc s
  · exact .inl ⟨h, by simp [exec, execCall, hp, State.setPc]⟩
  · exact .inr ⟨h, by simp [exec, execCall, hp]⟩

/-- 00EE continues after the address it pops, or underflows (42_control_transfer.md R137). -/
theorem exec_ret_cases (s : State) :
    (∃ v, 0 < s.sp.val ∧ s.stack[s.sp.val - 1]? = some v ∧
      exec .ret s = .next (autoIncrement { s with sp := ⟨s.sp.val - 1, by omega⟩, pc := v })) ∨
    (s.sp.val = 0 ∧ exec .ret s = .next (takeError .stackUnderflow s)) := by
  obtain ⟨v, h, hv, hp⟩ | ⟨h, hp⟩ := popToPc_cases s
  · exact .inl ⟨v, h, hv, by simp [exec, execRet, hp]⟩
  · exact .inr ⟨h, by simp [exec, execRet, hp]⟩

/-- DXYN clears `x[15]` and toggles pixels, and may raise an access error after that. -/
theorem exec_drw_cases (x y n : Nibble) (s : State) :
    ∃ u P, Toggles (s.setReg flagReg 0#8) u P ∧ (exec (.drw x y n) s = .next (autoIncrement u) ∨
      ∃ a, exec (.drw x y n) s = .next (takeError (.outOfRangeAccess a) u)) := by
  obtain ⟨u, P, hu, h | ⟨a, h⟩⟩ :=
    drawRows_cases (startColumn s x) s.I (startRow s y) n.toNat (s.setReg flagReg 0#8)
  · exact ⟨u, P, hu, .inl (by simp [exec, execDrw, h])⟩
  · exact ⟨u, P, hu, .inr ⟨a, by simp [exec, execDrw, h]⟩⟩

/-- What a block store does to memory keeps the canonical form, whether it ends in an error or not. -/
theorem storeBytes_cases_wf (addr : Word) (bs : List Byte) (s : State) :
    ∃ m, (s.mem.wf = true → m.wf = true) ∧ (storeBytes addr bs s = .done (s.setMem m) ∨
      ∃ a, storeBytes addr bs s = .raise (.outOfRangeAccess a) (s.setMem m)) := by
  obtain ⟨m, h | ⟨a, h⟩⟩ := storeBytes_cases addr bs s
  · exact ⟨m, fun hm => (storeBytes_wf hm).1 _ h, .inl h⟩
  · exact ⟨m, fun hm => (storeBytes_wf hm).2 _ _ h, .inr ⟨a, h⟩⟩

/-- FX33 stores to memory, and may raise an access error after that. -/
theorem exec_ldBcd_cases (x : Nibble) (s : State) :
    ∃ m, (s.mem.wf = true → m.wf = true) ∧ (exec (.ldBcd x) s = .next (autoIncrement (s.setMem m)) ∨
      ∃ a, exec (.ldBcd x) s = .next (takeError (.outOfRangeAccess a) (s.setMem m))) := by
  obtain ⟨m, hm, h | ⟨a, h⟩⟩ := storeBytes_cases_wf s.I (bcdDigits (s.reg x)) s
  · exact ⟨m, hm, .inl (by simp [exec, execLdBcd, h])⟩
  · exact ⟨m, hm, .inr ⟨a, by simp [exec, execLdBcd, h]⟩⟩

/-- FX55 stores to memory and advances `I`, or raises an access error after a part of the store. -/
theorem exec_storeRegs_cases (x : Nibble) (s : State) :
    ∃ m, (s.mem.wf = true → m.wf = true) ∧
      (exec (.storeRegs x) s = .next (autoIncrement (advanceI x (s.setMem m))) ∨
        ∃ a, exec (.storeRegs x) s = .next (takeError (.outOfRangeAccess a) (s.setMem m))) := by
  obtain ⟨m, hm, h | ⟨a, h⟩⟩ := storeBytes_cases_wf s.I (regsUpTo s x) s
  · exact ⟨m, hm, .inl (by simp [exec, execStoreRegs, h])⟩
  · exact ⟨m, hm, .inr ⟨a, by simp [exec, execStoreRegs, h]⟩⟩

/-- A block load of registers 0 to X leaves the registers above X alone. -/
theorem loadBytes_regCount_cases (x : Nibble) (s : State) :
    ∃ u, u = { s with x := u.x } ∧ (∀ r : Nibble, x.toNat < r.toNat → u.reg r = s.reg r) ∧
      (loadBytes s.I 0#4 (regCount x) s = .done u ∨
        ∃ a, loadBytes s.I 0#4 (regCount x) s = .raise (.outOfRangeAccess a) u) := by
  have hr : (0#4).toNat + regCount x ≤ 16 := by
    have := x.isLt
    simp [regCount]
    omega
  by_cases hfit : s.I.toNat + regCount x ≤ 4096
  · obtain ⟨u, hu, hx, hreg⟩ := loadBytes_done (addr := s.I) (by omega) hr s
    refine ⟨u, hx, fun r hlt => ?_, .inl hu⟩
    rw [hreg r, if_neg (by simp [regCount]; omega)]
  · obtain ⟨u, hu, hx, hreg⟩ := loadBytes_raise (addr := s.I) (by simp [regCount]) (by omega) hr s
    refine ⟨u, hx, fun r hlt => ?_, .inr ⟨_, hu⟩⟩
    rw [hreg r, if_neg (by simp [regCount] at *; omega)]

/-- FX65 loads registers 0 to X and advances `I`, or raises an access error after a part of the load. -/
theorem exec_loadRegs_cases (x : Nibble) (s : State) :
    ∃ u, u = { s with x := u.x } ∧ (∀ r : Nibble, x.toNat < r.toNat → u.reg r = s.reg r) ∧
      (exec (.loadRegs x) s = .next (autoIncrement (advanceI x u)) ∨
        ∃ a, exec (.loadRegs x) s = .next (takeError (.outOfRangeAccess a) u)) := by
  obtain ⟨u, hx, hreg, h | ⟨a, h⟩⟩ := loadBytes_regCount_cases x s
  · exact ⟨u, hx, hreg, .inl (by simp [exec, execLoadRegs, h])⟩
  · exact ⟨u, hx, hreg, .inr ⟨a, by simp [exec, execLoadRegs, h]⟩⟩

/-! ## What each instruction leaves alone (O45, O44) -/

/-- Settles O45, by the frame of each instruction's handler, with the auto-increment or the error after it. -/
theorem stateWrittenOnlyByItsInstructions : Obligations.StateWrittenOnlyByItsInstructions := by
  unfold Obligations.StateWrittenOnlyByItsInstructions
  intro i s t h
  cases i with
  | ldImm | addImm | ldReg | ldVxDT =>
    cases h
    exact (setReg_frame _ _ s).thenIncrement
  | orReg | andReg | xorReg | addReg | subReg | shr | subn | shl =>
    cases h
    exact (setResultThenFlag_frame _ _ _ s).thenIncrement
  | jp | jpV0 =>
    cases h
    exact setPc_frame _ s
  | seImm | sneImm | seReg | sneReg =>
    cases h
    exact (skipIf_frame _ s).thenIncrement.of_subset (by simp [partsWritten])
  | skp x =>
    obtain ⟨c, rfl⟩ := exec_skp_next h
    exact (skipIf_frame c s).thenIncrement.of_subset (by simp [partsWritten])
  | sknp x =>
    obtain ⟨c, rfl⟩ := exec_sknp_next h
    exact (skipIf_frame c s).thenIncrement.of_subset (by simp [partsWritten])
  | call nnn =>
    obtain ⟨hlt, he⟩ | ⟨-, he⟩ := exec_call_cases nnn s <;> cases he.symm.trans h
    · exact (stackPc_frame rfl).of_subset (by simp [partsWritten])
    · exact (takeError_frame _ s).of_subset (by simp [partsWritten])
  | ret =>
    obtain ⟨v, -, -, he⟩ | ⟨-, he⟩ := exec_ret_cases s <;> cases he.symm.trans h
    · exact (stackPc_frame (s := s) rfl).thenIncrement.of_subset (by simp [partsWritten])
    · exact (takeError_frame _ s).of_subset (by simp [partsWritten])
  | ldI | addI =>
    cases h
    exact (setI_frame _ s).thenIncrement
  | ldFont x =>
    obtain ⟨v, rfl⟩ := exec_ldFont_next h
    exact (setI_frame v s).thenIncrement
  | rnd x nn =>
    cases h
    exact ((setReg_frame _ _ s).trans (setDraws_frame _ _) (rs := [.regs, .draws]) (by simp)).thenIncrement.of_subset
      (by simp [partsWritten])
  | cls =>
    cases h
    exact (setFB_frame _ s).thenIncrement
  | drw x y n =>
    obtain ⟨u, P, hu, he⟩ := exec_drw_cases x y n s
    have hu := (setReg_frame flagReg 0#8 s).trans hu.only (rs := [.regs, .screen]) (by simp)
    obtain he | ⟨a, he⟩ := he <;> cases he.symm.trans h
    · exact hu.thenIncrement.of_subset (by simp [partsWritten])
    · exact (hu.thenError _).of_subset (by simp [partsWritten])
  | ldKey x =>
    cases h
    exact (keyWait_frame x s).thenIncrement
  | ldDTVx =>
    cases h
    exact (setDT_frame _ s).thenIncrement
  | ldSTVx =>
    cases h
    exact (setST_frame _ s).thenIncrement
  | ldBcd x =>
    obtain ⟨m, -, he | ⟨a, he⟩⟩ := exec_ldBcd_cases x s <;> cases he.symm.trans h
    · exact (setMem_frame m s).thenIncrement.of_subset (by simp [partsWritten])
    · exact ((setMem_frame m s).thenError _).of_subset (by simp [partsWritten])
  | storeRegs x =>
    obtain ⟨m, -, he | ⟨a, he⟩⟩ := exec_storeRegs_cases x s <;> cases he.symm.trans h
    · exact ((setMem_frame m s).trans (advanceI_frame x _) (rs := [.mem, .index]) (by simp)).thenIncrement.of_subset
        (by simp [partsWritten])
    · exact ((setMem_frame m s).thenError _).of_subset (by simp [partsWritten])
  | loadRegs x =>
    obtain ⟨u, hu, -, he | ⟨a, he⟩⟩ := exec_loadRegs_cases x s <;> cases he.symm.trans h
    · exact ((regs_frame hu).trans (advanceI_frame x u) (rs := [.regs, .index]) (by simp)).thenIncrement.of_subset
        (by simp [partsWritten])
    · exact ((regs_frame hu).thenError _).of_subset (by simp [partsWritten])
  | sys =>
    cases h
    exact takeError_frame _ s

/-- Settles O44: the instructions that write registers one by one, the others by their frame. -/
theorem registersWrittenAsListed : Obligations.RegistersWrittenAsListed := by
  unfold Obligations.RegistersWrittenAsListed
  intro i s t r h hr
  cases i with
  | ldImm | addImm | ldReg | ldVxDT | rnd | orReg | andReg | xorReg | addReg | subReg | shr | subn | shl =>
    cases h
    have hne := by simpa [mayWriteReg] using hr
    simp [hne]
  | ldKey x =>
    cases h
    have hne : r ≠ x := by simpa [mayWriteReg] using hr
    simp [keyWait_reg_other hne]
  | drw x y n =>
    have hne : r ≠ flagReg := by simpa [mayWriteReg] using hr
    obtain ⟨u, P, hu, he | ⟨a, he⟩⟩ := exec_drw_cases x y n s <;> cases he.symm.trans h <;>
      simp [hu.regs r hne, hne]
  | loadRegs x =>
    have hlt : x.toNat < r.toNat := by simpa [mayWriteReg] using hr
    obtain ⟨u, -, hreg, he | ⟨a, he⟩⟩ := exec_loadRegs_cases x s <;> cases he.symm.trans h <;>
      simp [hreg r hlt]
  | _ => exact stateWrittenOnlyByItsInstructions _ s t h .regs (by simp [partsWritten]) r

/-! ## Canonical memory (O53) -/

/-- An instruction keeps memory canonical: only FX33 and FX55 touch it, by block stores. -/
theorem exec_keeps_memCanonical {i : Instr} {s t : State} (hm : s.MemCanonical) (h : exec i s = .next t) :
    t.MemCanonical := by
  unfold State.MemCanonical at *
  cases i with
  | ldBcd x =>
    obtain ⟨m, hwf, he | ⟨a, he⟩⟩ := exec_ldBcd_cases x s <;> cases he.symm.trans h <;> simpa using hwf hm
  | storeRegs x =>
    obtain ⟨m, hwf, he | ⟨a, he⟩⟩ := exec_storeRegs_cases x s <;> cases he.symm.trans h <;> simpa using hwf hm
  | loadRegs x =>
    obtain ⟨u, hu, -, he | ⟨a, he⟩⟩ := exec_loadRegs_cases x s <;> cases he.symm.trans h <;> rw [hu] <;> simpa using hm
  | drw x y n =>
    obtain ⟨u, P, hu, he | ⟨a, he⟩⟩ := exec_drw_cases x y n s <;> cases he.symm.trans h <;>
      rw [hu.frame] <;> simpa using hm
  | call nnn =>
    obtain ⟨_, he⟩ | ⟨-, he⟩ := exec_call_cases nnn s <;> cases he.symm.trans h <;> simpa using hm
  | ret =>
    obtain ⟨v, -, -, he⟩ | ⟨-, he⟩ := exec_ret_cases s <;> cases he.symm.trans h <;> simpa using hm
  | skp x =>
    obtain ⟨c, rfl⟩ := exec_skp_next h
    simpa using hm
  | sknp x =>
    obtain ⟨c, rfl⟩ := exec_sknp_next h
    simpa using hm
  | ldFont x =>
    obtain ⟨v, rfl⟩ := exec_ldFont_next h
    simpa using hm
  | _ =>
    cases h
    simpa using hm

/-- Settles O53: a Cycle by its instruction, a Load by the copy of an image that fits, the other calls by their
frames and the reset memory. -/
theorem stepKeepsMemoryCanonical : Obligations.StepKeepsMemoryCanonical := by
  unfold Obligations.StepKeepsMemoryCanonical
  intro s t hm h
  obtain ⟨-, u, hu, rfl⟩ | ⟨rest, -, rfl⟩ | ⟨base, bytes, rest, -, -, hfit, rfl⟩ | ⟨rest, -, rfl⟩ := step_cases h
  · have hb : s.beforeCycle.MemCanonical := by simpa [State.MemCanonical] using hm
    have hc : u.MemCanonical := by
      obtain ⟨-, ⟨e, -, rfl⟩ | ⟨op, e, -, -, rfl⟩ | ⟨op, i, -, -, he⟩⟩ := cycle_cases hu
      · exact hb
      · exact hb
      · exact exec_keeps_memCanonical hb he
    simpa [State.MemCanonical] using hc
  · exact hm
  · exact setBytes_wf hm hfit
  · rfl

/-! ## Bounded `pc` and stack (O54) -/

theorem addrOperand_toNat_le (nnn : Addr12) : (addrOperand nnn).toNat ≤ 4095 := by
  have := nnn.isLt
  simp [addrOperand]
  omega

theorem wideReg_toNat_le (s : State) (r : Nibble) : (wideReg s r).toNat ≤ 255 := by
  have := (s.reg r).isLt
  simp [wideReg]
  omega

/-- A `pc` far below 65536 does not wrap in the auto-increment. -/
theorem autoIncrement_pc_le {s : State} {n : Nat} (hn : n < 65000) (h : s.pc.toNat ≤ n) :
    (autoIncrement s).pc.toNat ≤ n + 2 := by
  rw [autoIncrement_pc]
  cases s.waiting <;> simp <;> omega

/-- A `pc` far below 65536 does not wrap in a skip. -/
theorem skipIf_pc_le {s : State} {n : Nat} (c : Bool) (hn : n < 65000) (h : s.pc.toNat ≤ n) :
    (skipIf c s).pc.toNat ≤ n + 2 := by
  rw [skipIf_pc]
  cases c <;> simp <;> omega

/-- The bound on the stack entries in use (10_state.md R27): the third part of `State.PcBounded`. -/
def StackBounded (s : State) : Prop := ∀ k (h : k < 16), k < s.sp.val → (s.stack[k]'h).toNat ≤ 4094

theorem pcBounded_iff (s : State) :
    s.PcBounded ↔ s.pc.toNat ≤ 0x10FE ∧ s.params.entry.toNat ≤ 0x10FE ∧ StackBounded s := Iff.rfl

/-- The bound on the stack speaks of the stack only. -/
theorem StackBounded.congr {s t : State} (h : StackBounded s) (hstack : t.stack = s.stack ∧ t.sp = s.sp) :
    StackBounded t := by
  unfold StackBounded at *
  rwa [hstack.1, hstack.2]

/-- A call inside memory pushes a bounded address, a return pops, and no other instruction touches the stack. -/
theorem exec_keeps_stackBounded {i : Instr} {s t : State} (hpc : s.pc.toNat ≤ 4094) (hst : StackBounded s)
    (h : exec i s = .next t) : StackBounded t := by
  cases i with
  | call nnn =>
    obtain ⟨hlt, he⟩ | ⟨-, he⟩ := exec_call_cases nnn s <;> cases he.symm.trans h
    · intro k hk hsp
      simp only [Vector.getElem_set]
      split
      · exact hpc
      · exact hst k hk (by simp only at hsp; omega)
    · exact hst
  | ret =>
    obtain ⟨v, hpos, hv, he⟩ | ⟨-, he⟩ := exec_ret_cases s <;> cases he.symm.trans h
    · intro k hk hsp
      simp only [autoIncrement_sp, autoIncrement_stack] at hsp ⊢
      exact hst k hk (by omega)
    · exact hst
  | _ => exact hst.congr (stateWrittenOnlyByItsInstructions _ s t h .stack (by simp [partsWritten]))

/-- An instruction fetched from inside memory leaves `pc` at most 0x10FE, which BNNN reaches. -/
theorem exec_pc_le {i : Instr} {s t : State} (hpc : s.pc.toNat ≤ 4094) (hst : StackBounded s)
    (h : exec i s = .next t) : t.pc.toNat ≤ 0x10FE := by
  have hstay : s.pc.toNat ≤ 0x10FE := by omega
  have hnext {u : State} (hu : u.pc = s.pc) : (autoIncrement u).pc.toNat ≤ 0x10FE :=
    (autoIncrement_pc_le (by omega) (hu ▸ hpc)).trans (by omega)
  have hskip (c : Bool) : (autoIncrement (skipIf c s)).pc.toNat ≤ 0x10FE :=
    (autoIncrement_pc_le (by omega) (skipIf_pc_le c (by omega) hpc)).trans (by omega)
  cases i with
  | jp nnn =>
    cases h
    exact (addrOperand_toNat_le nnn).trans (by omega)
  | jpV0 nnn =>
    cases h
    have := addrOperand_toNat_le nnn
    have := wideReg_toNat_le s 0#4
    simp only [Bool.false_eq_true, if_false, State.setPc_pc, BitVec.toNat_add]
    omega
  | call nnn =>
    obtain ⟨_, he⟩ | ⟨-, he⟩ := exec_call_cases nnn s <;> cases he.symm.trans h
    · exact (addrOperand_toNat_le nnn).trans (by omega)
    · exact hstay
  | ret =>
    obtain ⟨v, hpos, hv, he⟩ | ⟨-, he⟩ := exec_ret_cases s <;> cases he.symm.trans h
    · obtain ⟨hk, rfl⟩ := Vector.getElem?_eq_some_iff.mp hv
      exact (autoIncrement_pc_le (by omega) (hst _ hk (by omega))).trans (by omega)
    · exact hstay
  | seImm | sneImm | seReg | sneReg =>
    cases h
    exact hskip _
  | skp x =>
    obtain ⟨c, rfl⟩ := exec_skp_next h
    exact hskip c
  | sknp x =>
    obtain ⟨c, rfl⟩ := exec_sknp_next h
    exact hskip c
  | ldFont x =>
    obtain ⟨v, rfl⟩ := exec_ldFont_next h
    exact hnext rfl
  | drw x y n =>
    obtain ⟨u, P, hu, he⟩ := exec_drw_cases x y n s
    have hupc : u.pc = s.pc := by rw [hu.frame]; rfl
    obtain he | ⟨a, he⟩ := he <;> cases he.symm.trans h
    · exact hnext hupc
    · simpa [hupc] using hstay
  | ldKey x =>
    cases h
    exact hnext (keyWait_pc x s)
  | ldBcd x =>
    obtain ⟨m, -, he | ⟨a, he⟩⟩ := exec_ldBcd_cases x s <;> cases he.symm.trans h
    · exact hnext rfl
    · exact hstay
  | storeRegs x =>
    obtain ⟨m, -, he | ⟨a, he⟩⟩ := exec_storeRegs_cases x s <;> cases he.symm.trans h
    · exact hnext rfl
    · exact hstay
  | loadRegs x =>
    obtain ⟨u, hu, -, he⟩ := exec_loadRegs_cases x s
    have hupc : u.pc = s.pc := by rw [hu]
    obtain he | ⟨a, he⟩ := he <;> cases he.symm.trans h
    · exact hnext hupc
    · simpa [hupc] using hstay
  | sys =>
    cases h
    exact hstay
  | _ =>
    cases h
    exact hnext rfl

/-- No instruction writes the parameters. -/
theorem exec_params {i : Instr} {s t : State} (h : exec i s = .next t) : t.params = s.params :=
  (stateWrittenOnlyByItsInstructions i s t h .inputs (by cases i <;> simp [partsWritten])).1

/-- A fetch succeeds only where both bytes lie inside memory. -/
theorem pc_le_of_fetch_ok {s : State} {op : Word} (h : fetch s = .ok op) : s.pc.toNat ≤ 4094 := by
  by_contra hgt
  simp [fetch_error (s := s) (by omega)] at h

/-- Settles O54: a Cycle runs an instruction only when the fetch succeeded, so `pc` was at most 4094 before it. -/
theorem stepKeepsProgramCounterBounded : Obligations.StepKeepsProgramCounterBounded := by
  unfold Obligations.StepKeepsProgramCounterBounded
  intro s t hb h
  obtain ⟨-, u, hu, rfl⟩ | ⟨rest, -, rfl⟩ | ⟨base, bytes, rest, -, -, -, rfl⟩ | ⟨rest, -, rfl⟩ := step_cases h
  · have hb' : s.beforeCycle.PcBounded := by simpa [State.PcBounded] using hb
    have hc : u.PcBounded := by
      obtain ⟨-, ⟨e, -, rfl⟩ | ⟨op, e, -, -, rfl⟩ | ⟨op, i, hf, -, he⟩⟩ := cycle_cases hu
      · exact hb'
      · exact hb'
      · have hpc := pc_le_of_fetch_ok hf
        obtain ⟨-, hentry, hst⟩ := (pcBounded_iff _).mp hb'
        exact ⟨exec_pc_le hpc hst he, by rwa [exec_params he], exec_keeps_stackBounded hpc hst he⟩
    simpa [State.PcBounded] using hc
  · exact hb
  · exact hb
  · exact ⟨hb.2.1, hb.2.1, fun k _ hk => absurd hk (Nat.not_lt_zero k)⟩

/-! ## The halt record (O41) -/

/-- Settles O41: a halted machine has no Cycle, and Tick and Load leave the record alone. -/
theorem onlyResetLeavesHalted : Obligations.OnlyResetLeavesHalted := by
  unfold Obligations.OnlyResetLeavesHalted
  intro s t e he h
  obtain ⟨-, u, hu, rfl⟩ | ⟨rest, -, rfl⟩ | ⟨base, bytes, rest, -, -, -, rfl⟩ | ⟨rest, hc, rfl⟩ := step_cases h
  · obtain ⟨hnone, -⟩ := cycle_cases hu
    simp [he] at hnone
  · exact .inl he
  · exact .inl he
  · exact .inr ⟨rest, hc⟩

/-! ## Sixteen calls (O19) -/

/-- Calls that fit on the stack all succeed, each adding one entry. -/
theorem execAll_calls (targets : List Addr12) (s : State) (hh : s.halted = none)
    (hfit : s.sp.val + targets.length ≤ 16) :
    ∃ t, execAll (targets.map Instr.call) s = .next t ∧ t.halted = none ∧
      t.sp.val = s.sp.val + targets.length := by
  induction targets generalizing s with
  | nil => exact ⟨s, rfl, hh, rfl⟩
  | cons nnn rest ih =>
    simp only [List.length_cons] at hfit
    obtain ⟨hlt, he⟩ | ⟨hfull, -⟩ := exec_call_cases nnn s
    · obtain ⟨t, ht, hth, hsp⟩ := ih { s with
        stack := s.stack.set s.sp.val s.pc hlt, sp := ⟨s.sp.val + 1, by omega⟩, pc := addrOperand nnn } hh
        (by simp only; omega)
      refine ⟨t, by simpa [execAll, he] using ht, hth, ?_⟩
      simp only [List.length_cons, hsp]
      omega
    · omega

theorem exec_call_overflow {s : State} (h : s.sp.val = 16) (nnn : Addr12) :
    exec (.call nnn) s = .next (takeError .stackOverflow s) := by
  obtain ⟨hlt, -⟩ | ⟨-, he⟩ := exec_call_cases nnn s
  · omega
  · exact he

theorem exec_ret_underflow {s : State} (h : s.sp.val = 0) : exec .ret s = .next (takeError .stackUnderflow s) := by
  obtain ⟨-, hpos, -⟩ | ⟨-, he⟩ := exec_ret_cases s
  · omega
  · exact he

/-- Settles O19, by induction over the calls. -/
theorem stackDisciplineSixteenDeep : Obligations.StackDisciplineSixteenDeep := by
  unfold Obligations.StackDisciplineSixteenDeep
  intro s hsp hh
  refine ⟨fun targets hlen => ?_, _, exec_ret_underflow hsp, rfl⟩
  obtain ⟨t, ht, hth, htsp⟩ := execAll_calls targets s hh (by omega)
  have hfull : t.sp.val = 16 := by omega
  exact ⟨t, ht, hth, hfull, fun nnn => ⟨_, exec_call_overflow hfull nnn, rfl, takeError_frame _ t⟩⟩

/-! ## Pixels (O52) -/

theorem getPixel_inside {fb : Screen} {px py : Nat} (h : px < 64 ∧ py < 32) :
    getPixel fb px py = .ok (pixelOn fb px py) := if_pos h

theorem getPixel_outside {fb : Screen} {px py : Nat} (h : ¬(px < 64 ∧ py < 32)) :
    getPixel fb px py = .error (.invalidPixelAccess px py) := if_neg h

theorem setPixel_outside {fb : Screen} {px py : Nat} (h : ¬(px < 64 ∧ py < 32)) (on : Bool) :
    setPixel fb px py on = fb := dif_neg h

/-- `get_pixel` depends on the pixel asked for only. -/
theorem getPixel_congr {fb gb : Screen} {px py : Nat} (h : pixelOn fb px py = pixelOn gb px py) :
    getPixel fb px py = getPixel gb px py := by
  simp only [getPixel, h]

/-- Settles O52, by the read-after-write law of pixels. -/
theorem pixelPortsAtScreenEdge : Obligations.PixelPortsAtScreenEdge := by
  unfold Obligations.PixelPortsAtScreenEdge
  intro fb px py qx qy on
  refine ⟨fun hout => ⟨setPixel_outside hout on, getPixel_outside hout⟩, fun hin => ⟨?_, fun hne => ?_⟩⟩
  · rw [getPixel_inside hin, pixelOn_setPixel, if_pos ⟨rfl, rfl, hin⟩]
  · apply getPixel_congr
    rw [pixelOn_setPixel, if_neg]
    rintro ⟨rfl, rfl, -⟩
    exact hne rfl

/-! ## Reset (O48, O49, O56) -/

/-- Memory is zero-filled at reset (10_state.md R41). -/
theorem reset_byteAt (a : Nat) : State.reset.mem.byteAt a = 0#8 := rfl

/-- Every register is 0 at reset (10_state.md R41). -/
theorem reset_reg (r : Nibble) : State.reset.reg r = 0#8 := by
  simp [State.reset, State.reg]

/-- Every pixel is off at reset (10_state.md R41). -/
theorem reset_pixelOn (px py : Nat) : pixelOn State.reset.FB px py = false := pixelOn_blank px py

/-- A step that serves a Reset call is the reset of the machine (50_external_interfaces.md R210). -/
theorem step_reset {s : State} {rest : List HostCall} (h : s.calls = .reset :: rest) :
    step s = .next (resetMachine { s with calls := rest }) := by
  simp [step, h]

/-- Settles O48: the state left has the pieces of the reset state, but `pc` at its own `ENTRY`. -/
theorem resetCallRestoresResetValues : Obligations.ResetCallRestoresResetValues := by
  unfold Obligations.ResetCallRestoresResetValues
  intro s rest h
  exact ⟨_, step_reset h, reset_byteAt, reset_reg, rfl, rfl, rfl, rfl, rfl, reset_pixelOn, rfl, rfl, rfl, rfl, rfl⟩

/-- Settles O49, by the values of the reset state. -/
theorem resetStateHoldsResetValues : Obligations.ResetStateHoldsResetValues := by
  unfold Obligations.ResetStateHoldsResetValues
  exact ⟨reset_byteAt, reset_reg, rfl, rfl, rfl, rfl, rfl, reset_pixelOn, rfl, rfl⟩

/-- Settles O56: memory and the stack are empty, `ENTRY` is its default, and the engine does not wait. -/
theorem resetMeetsInvariants : Obligations.ResetMeetsInvariants := by
  unfold Obligations.ResetMeetsInvariants
  refine ⟨rfl, ⟨by decide, by decide, fun k _ hk => absurd hk (Nat.not_lt_zero k)⟩, fun hw => ?_⟩
  cases hw

end Sys2Proof.Machine
end

section
/-! The family 20_memory.md: a store over the next instruction is what the next fetch reads, and a Load copies its
whole image or fails. -/

namespace Sys2Proof.Machine

/-! ## A store over the next instruction (O36) -/

@[simp] theorem regsUpTo_length (s : State) (x : Nibble) : (regsUpTo s x).length = x.toNat + 1 := by
  simp [regsUpTo, regCount]

@[simp] theorem regsUpTo_getElem (s : State) (x : Nibble) {k : Nat} (h : k < (regsUpTo s x).length) :
    (regsUpTo s x)[k] = s.reg (BitVec.ofNat 4 k) := by
  simp [regsUpTo]

/-- FX55 inside memory stores all its registers and advances `I` (46_timers_bcd_bulk.md R184). -/
theorem exec_storeRegs_inside {x : Nibble} {s : State} (hfit : s.I.toNat + x.toNat < 4096) :
    exec (.storeRegs x) s =
      .next (autoIncrement (advanceI x (s.setMem (s.mem.setBytes s.I.toNat (regsUpTo s x))))) := by
  have hblock : s.I.toNat + (regsUpTo s x).length ≤ 4096 := by
    rw [regsUpTo_length]
    omega
  simp [exec, execStoreRegs, storeBytes_done hblock]

/-- Where a block of two bytes or more was stored at `pc`, the fetch reads the first two of them
(20_memory.md R61). -/
theorem fetch_of_storedFrom {s t : State} {bs : List Byte} (hst : StoredFrom t.pc.toNat bs s t)
    (hlen : 1 < bs.length) (hpc : t.pc.toNat < 4095) : fetch t = .ok (joinBytes bs[0] bs[1]) := by
  rw [fetch_ok hpc, hst, hst, dif_pos (by omega), dif_pos (by omega)]
  simp

@[simp] theorem advanceI_waiting (x : Nibble) (s : State) : (advanceI x s).waiting = s.waiting := rfl

/-- FX55 inside memory leaves its registers stored from `I` and continues after itself. -/
theorem exec_storeRegs_stored {x : Nibble} {s : State} (hm : s.MemCanonical) (hfit : s.I.toNat + x.toNat < 4096) :
    ∃ t, exec (.storeRegs x) s = .next t ∧ StoredFrom s.I.toNat (regsUpTo s x) s t ∧ t.pc = s.nextPc := by
  have hstored : StoredFrom s.I.toNat (regsUpTo s x) s (s.setMem (s.mem.setBytes s.I.toNat (regsUpTo s x))) :=
    storeBytes_stored hm (by rw [regsUpTo_length]; omega)
  exact ⟨_, exec_storeRegs_inside hfit, by simpa [StoredFrom] using hstored, by simp [State.nextPc]⟩

/-- Settles O36: FX55 leaves `pc` at the address its block starts at. -/
theorem storeIsSeenByNextFetch : Obligations.StoreIsSeenByNextFetch := by
  unfold Obligations.StoreIsSeenByNextFetch
  intro x s hm hw hI hx hfit
  obtain ⟨t, ht, hstored, hpc⟩ := exec_storeRegs_stored hm hfit
  have hpcI : t.pc = s.I := by simp [hpc, State.nextPc, hw, hI]
  rw [← hpcI] at hstored hfit
  refine ⟨t, ht, ?_⟩
  rw [fetch_of_storedFrom hstored (by rw [regsUpTo_length]; omega) (by omega)]
  simp [joinBytes]

/-! ## Load (O50) -/

/-- A Load before the first Cycle of an image that fits copies it (20_memory.md R63). -/
theorem step_load_inside {s : State} {base : Word} {bytes : List Byte} {rest : List HostCall}
    (hc : s.calls = .load base bytes :: rest) (hs : s.started = false) (hfit : base.toNat + bytes.length ≤ 4096) :
    step s = .next { s with calls := rest, mem := s.mem.setBytes base.toNat bytes } := by
  simp [step, hc, loadCall, hs, loadImage, Nat.not_lt.mpr hfit, State.setMem]

/-- A Load before the first Cycle of an image that runs past memory faults with its last address
(20_memory.md R63). -/
theorem step_load_overrun {s : State} {base : Word} {bytes : List Byte} {rest : List HostCall}
    (hc : s.calls = .load base bytes :: rest) (hs : s.started = false) (hover : 4096 < base.toNat + bytes.length) :
    step s = .fault (.outOfRangeAccess (base.toNat + bytes.length - 1)) := by
  simp [step, hc, loadCall, hs, loadImage, hover]

/-- A Load after the first Cycle is refused (50_external_interfaces.md R208). -/
theorem step_load_started {s : State} {base : Word} {bytes : List Byte} {rest : List HostCall}
    (hc : s.calls = .load base bytes :: rest) (hs : s.started = true) : step s = .refused .loadAfterStart := by
  simp [step, hc, loadCall, hs]

/-- A state that differs in memory and in the coming calls only, as a Load leaves it. -/
theorem memCalls_frame (s : State) (m : Memory) (calls : List HostCall) :
    OnlyChanges [.mem, .inputs] s { s with calls := calls, mem := m } := by
  intro p hp
  cases p <;> simp [Unchanged, State.reg] at hp ⊢

/-- Settles O50: by when the Load comes and whether its image fits. -/
theorem loadCopiesImageOrFails : Obligations.LoadCopiesImageOrFails := by
  unfold Obligations.LoadCopiesImageOrFails
  intro s base bytes rest hm hc
  refine ⟨fun hs hfit => ?_, fun hs hover => step_load_overrun hc hs hover, fun hs => step_load_started hc hs⟩
  exact ⟨_, step_load_inside hc hs hfit, storeBytes_stored hm hfit, rfl, rfl, hs, memCalls_frame s _ rest⟩

end Sys2Proof.Machine
end

section
/-! The family 30_encoding.md: encoding and decoding are inverse to each other, no two rows with a handler share a word,
and which words have no handler. -/

namespace Sys2Proof

/-! ## Decoding by row 35 (R78) -/

/-- CLS and RET are the only rows with a handler whose opcode nibble is 0, and they fix every bit. -/
theorem definedRows_opcode_zero : ∀ r ∈ definedRows, nibble r.pattern 3 = 0#4 →
    r.mask = 0xFFFF#16 ∧ (r.pattern = 0x00E0#16 ∨ r.pattern = 0x00EE#16) := by decide

/-- A word with opcode nibble 0 that a row with a handler matches is that of CLS or that of RET. -/
theorem eq_cls_or_ret_of_rowMatches {op : Word} {r : OpcodeRow} (h0 : nibble op 3 = 0#4) (hr : r ∈ definedRows)
    (hm : rowMatches op r = true) : op = 0x00E0#16 ∨ op = 0x00EE#16 := by
  simp only [rowMatches, beq_iff_eq] at hm
  obtain ⟨hmask, hpat⟩ := definedRows_opcode_zero r hr (by simp [← hm, h0])
  have hop : op = r.pattern := by rw [← hm, hmask]; exact BitVec.and_allOnes.symm
  rwa [hop]

/-- Every word with opcode nibble 0 but those of CLS and RET decodes by row 35. -/
theorem decodeOp_sysRow {op : Word} (h0 : nibble op 3 = 0#4) (hcls : op ≠ 0x00E0#16) (hret : op ≠ 0x00EE#16) :
    decodeOp op = .ok (.sys (fieldNNN op)) := by
  have hnone : definedRows.find? (rowMatches op) = none := List.find?_eq_none.mpr fun r hr hm =>
    (eq_cls_or_ret_of_rowMatches h0 hr hm).elim hcls hret
  have hsys : rowMatches op sysRow = true := by simp [rowMatches_nibbles, sysRow, h0]
  have hfind : opcodeTable.find? (rowMatches op) = some sysRow := by
    simp [opcodeTable, List.find?_append, hnone, hsys]
  rw [decodeOp, hfind]
  rfl

/-! ## Decoding an encoding (O2) -/

theorem Instr.wf_iff (i : Instr) : i.wf = true ↔ i ≠ .sys 0x0E0#12 ∧ i ≠ .sys 0x0EE#12 := by
  cases i <;> simp [Instr.wf, sysFieldTaken]

theorem wordNNN_inj {f : Nibble} {a b : Addr12} (h : wordNNN f a = wordNNN f b) : a = b := by
  simpa using congrArg fieldNNN h

theorem decodeOp_encode_sys {nnn : Addr12} (hwf : (Instr.sys nnn).wf = true) :
    decodeOp (encode (.sys nnn)) = .ok (.sys nnn) := by
  obtain ⟨hcls, hret⟩ := (Instr.wf_iff _).mp hwf
  rw [decodeOp_sysRow (by simp [encode])]
  · simp [encode]
  · exact fun h => hcls (congrArg Instr.sys (wordNNN_inj (b := 0x0E0#12) h))
  · exact fun h => hret (congrArg Instr.sys (wordNNN_inj (b := 0x0EE#12) h))

/-- Settles O2: the encoding lies in the instruction's row, which decodes it unless it is row 35. -/
theorem decodeOfEncodeIsInstruction : Obligations.DecodeOfEncodeIsInstruction := by
  unfold Obligations.DecodeOfEncodeIsInstruction
  intro i hwf
  obtain ⟨r, hr, hm, hb⟩ := Laws.EncodesInRow.all i
  obtain hdef | hsys := List.mem_append.mp (List.mem_of_getElem? hr)
  · rw [decodeOp_of_definedRow hdef hm, hb]
  · obtain rfl := List.mem_singleton.mp hsys
    obtain ⟨nnn, rfl⟩ : ∃ nnn, i = .sys nnn := ⟨_, hb.symm⟩
    exact decodeOp_encode_sys hwf

/-! ## Encoding what was decoded (O3), by the formats of R73 -/

/-- The words a row matches are the encodings of what it builds from them. -/
def RowKeepsWord (r : OpcodeRow) : Prop :=
  ∀ op, rowMatches op r = true → encode (r.build op) = op

/-- A nibble that a row fixes is that of its pattern. -/
theorem nibble_of_rowMatches {op : Word} {r : OpcodeRow} (hm : rowMatches op r = true) {k : Nat}
    (hk : nibble r.mask k = 15#4) : nibble op k = nibble r.pattern k := by
  simp only [rowMatches, beq_iff_eq] at hm
  rw [← hm, nibble_and, hk, nibble_and_ones]

namespace RowKeepsWord

variable {p : Word} {b : Word → Instr}

theorem formatXNN (hb : ∀ op, encode (b op) = wordXNN (nibble p 3) (fieldX op) (fieldNN op)) :
    RowKeepsWord ⟨p, 0xF000, b⟩ := by
  intro op hm
  rw [hb, ← nibble_of_rowMatches hm (by simp), wordXNN_fields]

theorem formatNNN (hb : ∀ op, encode (b op) = wordNNN (nibble p 3) (fieldNNN op)) :
    RowKeepsWord ⟨p, 0xF000, b⟩ := by
  intro op hm
  rw [hb, ← nibble_of_rowMatches hm (by simp), wordNNN_fields]

theorem formatXYN (hb : ∀ op, encode (b op) = wordXYN (nibble p 3) (fieldX op) (fieldY op) (fieldN op)) :
    RowKeepsWord ⟨p, 0xF000, b⟩ := by
  intro op hm
  rw [hb, ← nibble_of_rowMatches hm (by simp)]
  exact wordXYN_nibbles op

/-- Format XYN with the last nibble fixed. -/
theorem formatXY (hb : ∀ op, encode (b op) = wordXYN (nibble p 3) (fieldX op) (fieldY op) (nibble p 0)) :
    RowKeepsWord ⟨p, 0xF00F, b⟩ := by
  intro op hm
  rw [hb, ← nibble_of_rowMatches hm (by simp), ← nibble_of_rowMatches hm (by simp)]
  exact wordXYN_nibbles op

/-- Format XNN with the low byte fixed. -/
theorem formatX (hb : ∀ op, encode (b op) = wordXNN (nibble p 3) (fieldX op) (fieldNN p)) :
    RowKeepsWord ⟨p, 0xF0FF, b⟩ := by
  intro op hm
  rw [hb, wordXNN_eq, fieldNN_high, fieldNN_low, ← nibble_of_rowMatches hm (by simp),
    ← nibble_of_rowMatches hm (by simp), ← nibble_of_rowMatches hm (by simp)]
  exact wordXYN_nibbles op

/-- The words of CLS and RET. -/
theorem fixedWord (hb : ∀ op, encode (b op) = p) : RowKeepsWord ⟨p, 0xFFFF, b⟩ := by
  intro op hm
  simp only [rowMatches, beq_iff_eq] at hm
  rw [hb, ← hm]
  exact BitVec.and_allOnes

end RowKeepsWord

open RowKeepsWord in
theorem opcodeTable_keepsWord : ∀ r ∈ opcodeTable, RowKeepsWord r := by
  have harith : ∀ r ∈ arithmeticRows, RowKeepsWord r := by
    simp only [arithmeticRows, List.forall_mem_cons]
    exact ⟨formatXNN fun _ => rfl, formatXNN fun _ => rfl, formatXY fun _ => rfl, formatXY fun _ => rfl,
      formatXY fun _ => rfl, formatXY fun _ => rfl, formatXY fun _ => rfl, formatXY fun _ => rfl,
      formatXY fun _ => rfl, formatXY fun _ => rfl, formatXY fun _ => rfl, List.forall_mem_nil _⟩
  have hcontrol : ∀ r ∈ controlRows, RowKeepsWord r := by
    simp only [controlRows, List.forall_mem_cons]
    exact ⟨formatNNN fun _ => rfl, formatXNN fun _ => rfl, formatXNN fun _ => rfl, formatXY fun _ => rfl,
      formatXY fun _ => rfl, formatNNN fun _ => rfl, formatNNN fun _ => rfl, fixedWord fun _ => rfl,
      List.forall_mem_nil _⟩
  have hindex : ∀ r ∈ indexDisplayRows, RowKeepsWord r := by
    simp only [indexDisplayRows, List.forall_mem_cons]
    exact ⟨formatNNN fun _ => rfl, formatX fun _ => rfl, formatXNN fun _ => rfl, formatX fun _ => rfl,
      fixedWord fun _ => rfl, formatXYN fun _ => rfl, List.forall_mem_nil _⟩
  have hinput : ∀ r ∈ inputTimerRows, RowKeepsWord r := by
    simp only [inputTimerRows, List.forall_mem_cons]
    exact ⟨formatX fun _ => rfl, formatX fun _ => rfl, formatX fun _ => rfl, formatX fun _ => rfl,
      formatX fun _ => rfl, formatX fun _ => rfl, formatX fun _ => rfl, formatX fun _ => rfl,
      formatX fun _ => rfl, List.forall_mem_nil _⟩
  simp only [opcodeTable, definedRows, List.forall_mem_append]
  exact ⟨⟨⟨⟨harith, hcontrol⟩, hindex⟩, hinput⟩, List.forall_mem_singleton.mpr (formatNNN fun _ => rfl)⟩

theorem encode_of_decodeOp {op : Word} {i : Instr} (h : decodeOp op = .ok i) : encode i = op := by
  obtain ⟨r, hr, hm, rfl⟩ := decodeOp_ok h
  exact opcodeTable_keepsWord r hr op hm

/-- CLS and RET come before row 35, so no word decodes to `SYS` on their fields (R78). -/
theorem wf_of_decodeOp {op : Word} {i : Instr} (h : decodeOp op = .ok i) : i.wf = true := by
  obtain rfl := encode_of_decodeOp h
  refine (Instr.wf_iff i).mpr ⟨?_, ?_⟩
  · rintro rfl
    exact absurd h (by decide)
  · rintro rfl
    exact absurd h (by decide)

/-- Settles O3: the row that decodes the word keeps it. -/
theorem encodeOfDecodedIsWord : Obligations.EncodeOfDecodedIsWord :=
  fun _ _ h => ⟨encode_of_decodeOp h, wf_of_decodeOp h⟩

/-! ## Rows share no word (O4) -/

/-- Settles O4: two by two the rows fix a common bit differently. -/
theorem definedRowsShareNoWord : Obligations.DefinedRowsShareNoWord :=
  ⟨rfl, definedRows_conflict.imp fun h => not_both_match h⟩

/-! ## Words without a handler (O5) -/

/-- A word is unknown when it matches no row. -/
theorem decodeOp_ne_ok_iff (op : Word) :
    (∀ i, decodeOp op ≠ .ok i) ↔ ∀ r ∈ opcodeTable, ¬ rowMatches op r = true := by
  rw [← List.find?_eq_none, decodeOp]
  cases opcodeTable.find? (rowMatches op) <;> simp

/-- Every row fixes the opcode nibble. -/
theorem opcodeTable_mask_opcode : ∀ r ∈ opcodeTable, nibble r.mask 3 = 15#4 := by decide

/-- The rows of one opcode nibble. -/
def rowsOfOpcode (f : Nibble) : List OpcodeRow := opcodeTable.filter fun r => nibble r.pattern 3 == f

/-- Only the rows of the word's opcode nibble count. -/
theorem decodeOp_wordXYN_ne_ok_iff (f x y n : Nibble) :
    (∀ i, decodeOp (wordXYN f x y n) ≠ .ok i) ↔
      ∀ r ∈ rowsOfOpcode f, ¬ rowMatches (wordXYN f x y n) r = true := by
  rw [decodeOp_ne_ok_iff]
  constructor
  · exact fun h r hr => h r (List.mem_of_mem_filter hr)
  · intro h r hr hm
    have hf : nibble r.pattern 3 = f := by
      rw [← nibble_of_rowMatches hm (opcodeTable_mask_opcode r hr), nibble_wordXYN_3]
    exact h r (List.mem_filter.mpr ⟨hr, beq_iff_eq.mpr hf⟩) hm

/-! The opcode nibbles whose rows fix more than the opcode nibble: the last nibble, or the low byte. -/

theorem unknown_iff_opcode5 (x y n : Nibble) : (∀ i, decodeOp (wordXYN 0x5 x y n) ≠ .ok i) ↔ n ≠ 0x0 := by
  rw [decodeOp_wordXYN_ne_ok_iff, show rowsOfOpcode 0x5 = [_] from rfl]
  simp [rowMatches_nibbles]

theorem unknown_iff_opcode9 (x y n : Nibble) : (∀ i, decodeOp (wordXYN 0x9 x y n) ≠ .ok i) ↔ n ≠ 0x0 := by
  rw [decodeOp_wordXYN_ne_ok_iff, show rowsOfOpcode 0x9 = [_] from rfl]
  simp [rowMatches_nibbles]

theorem unknown_iff_opcode8 (x y n : Nibble) :
    (∀ i, decodeOp (wordXYN 0x8 x y n) ≠ .ok i) ↔ n ∈ [0x8, 0x9, 0xA, 0xB, 0xC, 0xD, 0xF] := by
  have hrows : (∀ i, decodeOp (wordXYN 0x8 x y n) ≠ .ok i) ↔
      n ∉ [0x0, 0x1, 0x2, 0x3, 0x4, 0x5, 0x6, 0x7, 0xE] := by
    rw [decodeOp_wordXYN_ne_ok_iff, show rowsOfOpcode 0x8 = [_, _, _, _, _, _, _, _, _] from rfl]
    simp [rowMatches_nibbles]
  have hcompl : ∀ n : Nibble, n ∉ [0x0, 0x1, 0x2, 0x3, 0x4, 0x5, 0x6, 0x7, 0xE] ↔
      n ∈ [0x8, 0x9, 0xA, 0xB, 0xC, 0xD, 0xF] := by decide
  exact hrows.trans (hcompl n)

theorem unknown_iff_opcodeE (x y n : Nibble) :
    (∀ i, decodeOp (wordXYN 0xE x y n) ≠ .ok i) ↔ (y, n) ∉ [((0x9 : Nibble), (0xE : Nibble)), (0xA, 0x1)] := by
  rw [decodeOp_wordXYN_ne_ok_iff, show rowsOfOpcode 0xE = [_, _] from rfl]
  simp [rowMatches_nibbles]

theorem unknown_iff_opcodeF (x y n : Nibble) :
    (∀ i, decodeOp (wordXYN 0xF x y n) ≠ .ok i) ↔
      (y, n) ∉ [((0x0 : Nibble), (0x7 : Nibble)), (0x0, 0xA), (0x1, 0x5), (0x1, 0x8), (0x1, 0xE), (0x2, 0x9),
        (0x3, 0x3), (0x5, 0x5), (0x6, 0x5)] := by
  have hrows : (∀ i, decodeOp (wordXYN 0xF x y n) ≠ .ok i) ↔
      (y, n) ∉ [((0x1 : Nibble), (0xE : Nibble)), (0x2, 0x9), (0x0, 0xA), (0x0, 0x7), (0x1, 0x5), (0x1, 0x8),
        (0x3, 0x3), (0x5, 0x5), (0x6, 0x5)] := by
    rw [decodeOp_wordXYN_ne_ok_iff, show rowsOfOpcode 0xF = [_, _, _, _, _, _, _, _, _] from rfl]
    simp [rowMatches_nibbles]
  exact hrows.trans (not_congr (List.Perm.mem_iff (by decide)))

/-- The other opcode nibbles have a row that fixes no other bit. -/
theorem exists_row_of_opcode : ∀ f : Nibble, f ∉ [0x5, 0x8, 0x9, 0xE, 0xF] →
    ∃ r ∈ rowsOfOpcode f, r.mask = 0xF000#16 ∧ r.pattern = wordXYN f 0 0 0 := by decide

theorem known_of_opcode {f : Nibble} (hf : f ∉ [0x5, 0x8, 0x9, 0xE, 0xF]) (x y n : Nibble) :
    ¬ ∀ i, decodeOp (wordXYN f x y n) ≠ .ok i := by
  obtain ⟨r, hr, hmask, hpat⟩ := exists_row_of_opcode f hf
  rw [decodeOp_wordXYN_ne_ok_iff]
  exact fun h => h r hr (by simp [rowMatches_nibbles, hmask, hpat])

/-- The words that no row decodes (R79). -/
theorem unknown_iff (f x y n : Nibble) :
    (∀ i, decodeOp (wordXYN f x y n) ≠ .ok i) ↔
      (f = 0x5 ∧ n ≠ 0x0) ∨ (f = 0x9 ∧ n ≠ 0x0) ∨
      (f = 0x8 ∧ n ∈ [0x8, 0x9, 0xA, 0xB, 0xC, 0xD, 0xF]) ∨
      (f = 0xE ∧ (y, n) ∉ [((0x9 : Nibble), (0xE : Nibble)), (0xA, 0x1)]) ∨
      (f = 0xF ∧ (y, n) ∉ [((0x0 : Nibble), (0x7 : Nibble)), (0x0, 0xA), (0x1, 0x5), (0x1, 0x8), (0x1, 0xE),
        (0x2, 0x9), (0x3, 0x3), (0x5, 0x5), (0x6, 0x5)]) := by
  by_cases hf : f ∈ [0x5, 0x8, 0x9, 0xE, 0xF]
  · simp only [List.mem_cons, List.not_mem_nil, or_false] at hf
    obtain rfl | rfl | rfl | rfl | rfl := hf
    · rw [unknown_iff_opcode5]
      simp
    · rw [unknown_iff_opcode8]
      simp
    · rw [unknown_iff_opcode9]
      simp
    · rw [unknown_iff_opcodeE]
      simp
    · rw [unknown_iff_opcodeF]
      simp
  · refine iff_of_false (known_of_opcode hf x y n) ?_
    rintro (⟨rfl, -⟩ | ⟨rfl, -⟩ | ⟨rfl, -⟩ | ⟨rfl, -⟩ | ⟨rfl, -⟩) <;> simp at hf

theorem wordXYN_inj {f x y n f' x' y' n' : Nibble} :
    wordXYN f x y n = wordXYN f' x' y' n' ↔ f = f' ∧ x = x' ∧ y = y' ∧ n = n' := by
  constructor
  · intro h
    have hk (k : Nat) : nibble (wordXYN f x y n) k = nibble (wordXYN f' x' y' n') k := congrArg (nibble · k) h
    exact ⟨by simpa using hk 3, by simpa using hk 2, by simpa using hk 1, by simpa using hk 0⟩
  · rintro ⟨rfl, rfl, rfl, rfl⟩
    rfl

theorem cls_word_nibbles : (0x00E0#16 : Word) = wordXYN 0x0 0x0 0xE 0x0 := rfl
theorem ret_word_nibbles : (0x00EE#16 : Word) = wordXYN 0x0 0x0 0xE 0xE := rfl

/-- Row 35 decodes the words with opcode nibble 0 but those of CLS and RET. -/
theorem decodes_to_sys_iff (f x y n : Nibble) :
    (∃ nnn, decodeOp (wordXYN f x y n) = .ok (.sys nnn)) ↔
      f = 0x0 ∧ ¬(x = 0x0 ∧ y = 0xE ∧ (n = 0x0 ∨ n = 0xE)) := by
  constructor
  · rintro ⟨nnn, h⟩
    obtain rfl : 0x0 = f := by simpa [encode] using congrArg (nibble · 3) (encode_of_decodeOp h)
    refine ⟨rfl, ?_⟩
    rintro ⟨rfl, rfl, rfl | rfl⟩
    · cases h.symm.trans (show _ = .ok .cls by decide)
    · cases h.symm.trans (show _ = .ok .ret by decide)
  · rintro ⟨rfl, hne⟩
    refine ⟨_, decodeOp_sysRow (nibble_wordXYN_3 0x0 x y n) (fun h => hne ?_) fun h => hne ?_⟩
    · obtain ⟨-, hx, hy, hn⟩ := wordXYN_inj.mp (h.trans cls_word_nibbles)
      exact ⟨hx, hy, .inl hn⟩
    · obtain ⟨-, hx, hy, hn⟩ := wordXYN_inj.mp (h.trans ret_word_nibbles)
      exact ⟨hx, hy, .inr hn⟩

/-- Settles O5, by the rows of each opcode nibble. -/
theorem wordsWithoutHandler : Obligations.WordsWithoutHandler :=
  fun f x y n => ⟨unknown_iff f x y n, decodes_to_sys_iff f x y n⟩

/-! ## Sample words (O1) and the row without a handler (O20) -/

/-- Settles O1: the decoder runs on each word. -/
theorem sampleWordsDecode : Obligations.SampleWordsDecode := by
  unfold Obligations.SampleWordsDecode
  decide

end Sys2Proof

namespace Sys2Proof.Machine

/-- SYS enters its error in every state (R79). -/
theorem exec_sys (nnn : Addr12) (s : State) :
    exec (.sys nnn) s = .next (takeError (.unknownInstruction (encode (.sys nnn))) s) := rfl

/-- Settles O20: by the round trip of well-formed instructions, and by the frame of an error's entry. -/
theorem sysRaisesUnknownInstruction : Obligations.SysRaisesUnknownInstruction := by
  unfold Obligations.SysRaisesUnknownInstruction
  intro nnn s
  refine ⟨fun hcls hret => decodeOp_encode_sys ?_, _, exec_sys nnn s, rfl, takeError_frame _ s⟩
  simp [Instr.wf_iff, hcls, hret]

end Sys2Proof.Machine
end

section
/-! The family 40_execution_cycle.md: a Cycle runs the instruction that the word at `pc` decodes to or enters an error,
a halted machine has no Cycle, and a waiting engine stands at its FX0A. -/

namespace Sys2Proof.Machine

/-! ## The outcomes of a Cycle (40_execution_cycle.md R99) -/

theorem cycle_halted {s : State} {e : Fault} (hh : s.halted = some e) : cycle s = .fault e := by
  simp [cycle, hh]

theorem cycle_fetch_error {s : State} {e : Fault} (hh : s.halted = none) (hf : fetch s = .error e) :
    cycle s = .next (takeError e s) := by
  simp [cycle, hh, hf]

theorem cycle_decode_error {s : State} {op : Word} {e : DecodeError} (hh : s.halted = none)
    (hf : fetch s = .ok op) (hd : decodeOp op = .error e) :
    cycle s = .next (takeError (.unknownInstruction op) s) := by
  simp [cycle, hh, hf, hd]

@[simp] theorem fetch_beforeCycle (s : State) : fetch s.beforeCycle = fetch s := fetch_congr (by simp) (by simp)

@[simp] theorem fetch_cycleServed (s : State) : fetch (cycleServed s) = fetch s := fetch_congr (by simp) (by simp)

/-! ## A waiting engine stands at its FX0A (O55) -/

/-- The latch is written by FX0A only (10_state.md R36). -/
theorem exec_waiting_of_ne_ldKey {i : Instr} {s t : State} (hi : ∀ x, i ≠ .ldKey x) (h : exec i s = .next t) :
    t.waiting = s.waiting := by
  have hlatch : Part.latch ∉ partsWritten i := by
    cases i with
    | ldKey x => exact absurd rfl (hi x)
    | _ => simp [partsWritten]
  exact (stateWrittenOnlyByItsInstructions i s t h .latch hlatch).1

/-- FX0A that leaves the engine waiting does not move `pc` (40_execution_cycle.md R94). -/
theorem exec_ldKey_waiting {x : Nibble} {s t : State} (h : exec (.ldKey x) s = .next t) (hw : t.waiting = true) :
    t = keyWait x s := by
  cases h
  exact if_pos (by simpa using hw)

/-- A Cycle that leaves the engine waiting has run the FX0A at `pc`: a waiting engine fetches it again, and one that
does not wait enters the wait by no other instruction. -/
theorem cycle_into_wait {s t : State} (hs : s.WaitsAtKeyInstr) (h : cycle s = .next t) (hw : t.waiting = true) :
    ∃ x, fetch s = .ok (encode (.ldKey x)) ∧ t = keyWait x s := by
  obtain ⟨hh, hcases⟩ := cycle_cases h
  cases hsw : s.waiting with
  | true =>
    obtain ⟨-, -, x, hf⟩ := hs hsw
    have hrun := cycle_runs hh hf (decodeOfEncodeIsInstruction (.ldKey x) rfl)
    exact ⟨x, hf, exec_ldKey_waiting (hrun.symm.trans h) hw⟩
  | false =>
    obtain ⟨e, -, rfl⟩ | ⟨op, e, -, -, rfl⟩ | ⟨op, i, hf, hd, he⟩ := hcases
    · simp [hsw] at hw
    · simp [hsw] at hw
    · obtain ⟨x, rfl⟩ | hi := em (∃ x, i = .ldKey x)
      · exact ⟨x, by rw [hf, encode_of_decodeOp hd], exec_ldKey_waiting he hw⟩
      · simp [exec_waiting_of_ne_ldKey (not_exists.mp hi) he, hsw] at hw

/-- The handler of FX0A enters no error. -/
@[simp] theorem keyWait_halted (x : Nibble) (s : State) : (keyWait x s).halted = s.halted :=
  keyWait_frame x s .halt (by simp)

/-- A Cycle that leaves the engine waiting leaves it at an FX0A (R97). -/
theorem cycle_keeps_waitsAtKeyInstr {s u : State} (hs : s.WaitsAtKeyInstr) (h : cycle s = .next u) :
    (cycleServed u).WaitsAtKeyInstr := by
  intro hw
  obtain ⟨x, hf, rfl⟩ := cycle_into_wait hs h (by simpa using hw)
  obtain ⟨hh, -⟩ := cycle_cases h
  refine ⟨by simpa using hh, cycleServed_started _, x, ?_⟩
  rw [fetch_cycleServed, fetch_congr (keyWait_mem x s) (keyWait_pc x s), hf]

/-- Settles O55: a Cycle by `cycle_into_wait`; a Tick touches neither memory nor `pc`, a Load comes before the start
of the run and so finds no waiting engine, and Reset ends the wait. -/
theorem stepKeepsWaitAtKeyInstruction : Obligations.StepKeepsWaitAtKeyInstruction := by
  unfold Obligations.StepKeepsWaitAtKeyInstruction
  intro s t hs h
  obtain ⟨-, u, hu, rfl⟩ | ⟨rest, -, rfl⟩ | ⟨base, bytes, rest, -, hst, -, rfl⟩ | ⟨rest, -, rfl⟩ := step_cases h
  · have hb : s.beforeCycle.WaitsAtKeyInstr := by simpa [State.WaitsAtKeyInstr] using hs
    exact cycle_keeps_waitsAtKeyInstr hb hu
  · exact hs
  · intro hw
    obtain ⟨-, hstarted, -⟩ := hs hw
    simp [hst] at hstarted
  · intro hw
    cases hw

/-! ## A step runs the decoded instruction (O37) -/

/-- A step given a Cycle whose fetch decodes is that instruction's meaning, with the call served after it. -/
theorem step_runs {s : State} {op : Word} {i : Instr} (hc : s.CycleNext) (hh : s.halted = none)
    (hf : fetch s = .ok op) (hd : decodeOp op = .ok i) : step s = afterCycle (exec i s.beforeCycle) := by
  rw [step_cycle hc, cycle_runs (by simpa using hh) (by simpa using hf) hd]

/-- A listed Cycle runs in the state itself, with the listed keys (50_external_interfaces.md R203). -/
theorem listedCycle_beforeCycle {s : State} {k : Word} {rest : List HostCall} (hc : s.calls = .cycle k :: rest) :
    s.beforeCycle = s ∧ s.keys = k := by
  simp [State.beforeCycle, State.keys, hc]

/-- Settles O37: the fetch inside memory gives the word that decodes, and the served call is bookkeeping only. -/
theorem stepRunsDecodedInstruction : Obligations.StepRunsDecodedInstruction := by
  unfold Obligations.StepRunsDecodedInstruction
  intro s i hc hh hpc hd
  have hstep := step_runs hc hh (fetch_ok (by omega)) hd
  refine ⟨beforeCycle_frame s, fun k rest => listedCycle_beforeCycle, fun t ht => ?_, fun r hr => ?_⟩
  · exact ⟨cycleServed t, by rw [hstep, ht, afterCycle], cycleServed_frame t, cycleServed_params t,
      cycleServed_calls t, cycleServed_started t⟩
  · rw [hstep, hr, afterCycle]

/-! ## Errors of fetch and dispatch (O38, O39), and the halted machine (O40) -/

/-- A Cycle that enters an error without running an instruction changes the halt record and the inputs only. -/
theorem step_takeError {s : State} {e : Fault} (hc : s.CycleNext)
    (h : cycle s.beforeCycle = .next (takeError e s.beforeCycle)) :
    ∃ t, step s = .next t ∧ t.halted = some e ∧ OnlyChanges [.halt, .inputs] s.beforeCycle t := by
  refine ⟨cycleServed (takeError e s.beforeCycle), by rw [step_cycle hc, h, afterCycle], by simp, ?_⟩
  exact (takeError_frame e _).trans (cycleServed_frame _) (by simp)

/-- Settles O38: the fetch reports the first of its two addresses that lies past memory. -/
theorem fetchFaultsPastMemory : Obligations.FetchFaultsPastMemory := by
  unfold Obligations.FetchFaultsPastMemory
  intro s hc hh hpc
  have haddr : firstOutOfRange s.pc = if s.pc.toNat = 4095 then 4096 else s.pc.toNat := by
    unfold firstOutOfRange
    split <;> omega
  rw [← haddr]
  exact step_takeError hc (cycle_fetch_error (by simpa using hh) (by simpa using fetch_error hpc))

/-- A word that none of rows 1 to 34 matches can decode by row 35 only (30_encoding.md R78, R79). -/
theorem decodeOp_unmatched {op : Word} {i : Instr} (hno : ∀ r ∈ definedRows, rowMatches op r = false)
    (hd : decodeOp op = .ok i) : ∃ nnn, i = .sys nnn := by
  obtain ⟨r, hr, hm, rfl⟩ := decodeOp_ok hd
  obtain hdef | hsys := List.mem_append.mp hr
  · simp [hno r hdef] at hm
  · obtain rfl := List.mem_singleton.mp hsys
    exact ⟨_, rfl⟩

/-- A Cycle on a word that none of rows 1 to 34 matches raises `UnknownInstruction`: at the table match, or in row 35's
handler (R93). -/
theorem cycle_unmatched {s : State} {op : Word} (hh : s.halted = none) (hf : fetch s = .ok op)
    (hno : ∀ r ∈ definedRows, rowMatches op r = false) :
    cycle s = .next (takeError (.unknownInstruction op) s) := by
  cases hd : decodeOp op with
  | error e => exact cycle_decode_error hh hf hd
  | ok i =>
    obtain ⟨nnn, rfl⟩ := decodeOp_unmatched hno hd
    rw [cycle_runs hh hf hd, exec_sys, encode_of_decodeOp hd]

/-- Settles O39: the fetch inside memory gives the word, which no handler of rows 1 to 34 takes. -/
theorem unmatchedWordRaisesUnknownInstruction : Obligations.UnmatchedWordRaisesUnknownInstruction := by
  unfold Obligations.UnmatchedWordRaisesUnknownInstruction
  intro s op hc hh hpc hop hno
  have hf : fetch s = .ok op := by rw [fetch_ok (by omega), hop, joinBytes]
  exact step_takeError hc (cycle_unmatched (by simpa using hh) (by simpa using hf) hno)

/-- Settles O40: the halted test comes first in a Cycle, and free ticks leave the record alone. -/
theorem haltedMachineHasNoCycle : Obligations.HaltedMachineHasNoCycle := by
  unfold Obligations.HaltedMachineHasNoCycle
  intro s e hc hh
  rw [step_cycle hc, cycle_halted (by simpa using hh), afterCycle]

end Sys2Proof.Machine
end

section
/-! The family 41_register_arithmetic.md: every instruction of it writes a register, or a result and then its flag, and
continues after itself; what is left is the value and the flag as arithmetic on the old values. -/

namespace Sys2Proof.Machine

/-! ## The two ways the family ends (10_state.md R22, R23) -/

/-- An instruction whose handler writes one register, then continues. -/
theorem exec_writes_reg {i : Instr} {s : State} {x : Nibble} {v : Byte}
    (h : exec i s = finish true (.done (s.setReg x v))) :
    ∃ t, exec i s = .next t ∧ t.reg x = v ∧ t.pc = s.nextPc ∧ OtherRegsSame [x] s t ∧ OnlyChanges [.regs, .pc] s t := by
  refine ⟨_, h, by simp, by simp [State.nextPc], fun r hr => ?_, (setReg_frame x v s).thenIncrement⟩
  have hne : r ≠ x := by simpa using hr
  simp [hne]

/-- An instruction whose handler writes a result and then its flag, then continues: the flag stands for every X, the
result for X not 15. -/
theorem exec_writes_result_then_flag {i : Instr} {s : State} {x : Nibble} {v : Byte} {f : Bool}
    (h : exec i s = finish true (.done (setResultThenFlag s x v f))) :
    ∃ t, exec i s = .next t ∧ (x ≠ 15#4 → t.reg x = v) ∧ t.reg 15#4 = flagByte f ∧ t.pc = s.nextPc ∧
      OtherRegsSame [x, 15#4] s t ∧ OnlyChanges [.regs, .pc] s t := by
  refine ⟨_, h, fun hx => ?_, by simp [flagReg], by simp [State.nextPc], fun r hr => ?_,
    (setResultThenFlag_frame x v f s).thenIncrement⟩
  · simp [flagReg, hx]
  · obtain ⟨hrx, hrf⟩ : r ≠ x ∧ r ≠ 15#4 := by simpa using hr
    simp [flagReg, hrx, hrf]

/-! ## Results and flags as numbers (R116 to R122) -/

/-- The subtraction of R117 as the spec writes it: the minuend first, raised by 256. -/
theorem byte_sub_toNat (a b : Byte) : (a - b).toNat = (a.toNat + 256 - b.toNat) % 256 := by
  rw [BitVec.toNat_sub]
  omega

theorem byte_shiftRight_one_toNat (a : Byte) : (a >>> 1).toNat = a.toNat / 2 := by
  rw [BitVec.toNat_ushiftRight, Nat.shiftRight_eq_div_pow, Nat.pow_one]

theorem byte_shiftLeft_one_toNat (a : Byte) : (a <<< 1).toNat = 2 * a.toNat % 256 := by
  rw [BitVec.toNat_shiftLeft, Nat.shiftLeft_eq, Nat.pow_one, Nat.mul_comm]

theorem flagByte_carryFlag (a b : Byte) :
    flagByte (carryFlag a b) = if 255 < a.toNat + b.toNat then 1#8 else 0#8 := by
  simp [flagByte, carryFlag]

theorem flagByte_notBorrowFlag (a b : Byte) :
    flagByte (notBorrowFlag a b) = if a.toNat < b.toNat then 0#8 else 1#8 := by
  by_cases h : a.toNat < b.toNat <;> simp [flagByte, notBorrowFlag, h]

theorem flagByte_toNat (b : Bool) : (flagByte b).toNat = b.toNat := by
  cases b <;> rfl

theorem flagByte_shiftedOutRight_toNat (a : Byte) : (flagByte (shiftedOutRight a)).toNat = a.toNat % 2 := by
  rw [flagByte_toNat, shiftedOutRight, BitVec.getLsbD, Nat.toNat_testBit, Nat.pow_zero, Nat.div_one]

/-- Bit 7 is the top bit of a byte, so nothing above it is left in the quotient. -/
theorem flagByte_shiftedOutLeft_toNat (a : Byte) : (flagByte (shiftedOutLeft a)).toNat = a.toNat / 128 := by
  rw [flagByte_toNat, shiftedOutLeft, BitVec.getLsbD, Nat.toNat_testBit]
  omega

/-! ## Loads, immediate add, copy (O6, O7, O8): no flag -/

/-- Settles O6, by the one register written. -/
theorem loadImmediateSetsRegister : Obligations.LoadImmediateSetsRegister :=
  fun x nn _ => ⟨decodeOfEncodeIsInstruction (.ldImm x nn) rfl, exec_writes_reg rfl⟩

/-- Settles O7, by the one register written: byte addition is addition modulo 256. -/
theorem addImmediateWrapsWithoutFlag : Obligations.AddImmediateWrapsWithoutFlag := by
  unfold Obligations.AddImmediateWrapsWithoutFlag
  intro x nn s
  obtain ⟨t, ht, hres, hrest⟩ := exec_writes_reg (i := .addImm x nn) (s := s) rfl
  exact ⟨decodeOfEncodeIsInstruction (.addImm x nn) rfl, t, ht, by rw [hres, BitVec.toNat_add], hrest⟩

/-- Settles O8, by the one register written. -/
theorem copyRegisterCopies : Obligations.CopyRegisterCopies :=
  fun x y _ => ⟨decodeOfEncodeIsInstruction (.ldReg x y) rfl, exec_writes_reg rfl⟩

/-! ## Operations with a flag (O9 to O12) -/

/-- Settles O9, by the result and the cleared flag of each of the three. -/
theorem logicOperationsClearFlag : Obligations.LogicOperationsClearFlag :=
  fun x y _ =>
    ⟨⟨decodeOfEncodeIsInstruction (.orReg x y) rfl, exec_writes_result_then_flag (f := false) rfl⟩,
      ⟨decodeOfEncodeIsInstruction (.andReg x y) rfl, exec_writes_result_then_flag (f := false) rfl⟩,
      ⟨decodeOfEncodeIsInstruction (.xorReg x y) rfl, exec_writes_result_then_flag (f := false) rfl⟩⟩

/-- Settles O10, by the sum and its carry. -/
theorem addRegistersSetsCarry : Obligations.AddRegistersSetsCarry := by
  unfold Obligations.AddRegistersSetsCarry
  intro x y s
  obtain ⟨t, ht, hres, hflag, hrest⟩ := exec_writes_result_then_flag (i := .addReg x y) (s := s) rfl
  rw [flagByte_carryFlag] at hflag
  exact ⟨decodeOfEncodeIsInstruction (.addReg x y) rfl, t, ht, fun hx => by rw [hres hx, BitVec.toNat_add],
    hflag, hrest⟩

/-- An instruction whose handler writes a difference and then its not-borrow, whichever way round the operands are. -/
theorem exec_subtracts {i : Instr} {s : State} {x : Nibble} {a b : Byte}
    (h : exec i s = finish true (.done (setResultThenFlag s x (a - b) (notBorrowFlag a b)))) :
    ∃ t, exec i s = .next t ∧ (x ≠ 15#4 → (t.reg x).toNat = (a.toNat + 256 - b.toNat) % 256) ∧
      t.reg 15#4 = (if a.toNat < b.toNat then 0#8 else 1#8) ∧ t.pc = s.nextPc ∧
      OtherRegsSame [x, 15#4] s t ∧ OnlyChanges [.regs, .pc] s t := by
  obtain ⟨t, ht, hres, hflag, hrest⟩ := exec_writes_result_then_flag h
  rw [flagByte_notBorrowFlag] at hflag
  exact ⟨t, ht, fun hx => by rw [hres hx, byte_sub_toNat], hflag, hrest⟩

/-- Settles O11: SUB and SUBN are one subtraction, with the operands changed over. -/
theorem subtractionsSetNotBorrow : Obligations.SubtractionsSetNotBorrow :=
  fun x y _ =>
    ⟨⟨decodeOfEncodeIsInstruction (.subReg x y) rfl, exec_subtracts rfl⟩,
      ⟨decodeOfEncodeIsInstruction (.subn x y) rfl, exec_subtracts rfl⟩⟩

/-- Settles O12: halving and doubling modulo 256, with the bit that the shift loses. -/
theorem shiftsInPlaceSetShiftedOutBit : Obligations.ShiftsInPlaceSetShiftedOutBit := by
  unfold Obligations.ShiftsInPlaceSetShiftedOutBit
  intro x y s
  refine ⟨⟨decodeOfEncodeIsInstruction (.shr x y) rfl, ?_⟩, ⟨decodeOfEncodeIsInstruction (.shl x y) rfl, ?_⟩⟩
  · obtain ⟨t, ht, hres, hflag, hrest⟩ := exec_writes_result_then_flag (i := .shr x y) (s := s) rfl
    exact ⟨t, ht, fun hx => by rw [hres hx, byte_shiftRight_one_toNat],
      by rw [hflag, flagByte_shiftedOutRight_toNat], hrest⟩
  · obtain ⟨t, ht, hres, hflag, hrest⟩ := exec_writes_result_then_flag (i := .shl x y) (s := s) rfl
    exact ⟨t, ht, fun hx => by rw [hres hx, byte_shiftLeft_one_toNat],
      by rw [hflag, flagByte_shiftedOutLeft_toNat], hrest⟩

end Sys2Proof.Machine
end

section
/-! The family 42_control_transfer.md: jumps and skips move `pc` only; a call pushes its own address, and a return pops
that address and goes on after it. -/

namespace Sys2Proof.Machine

/-! ## Jumps (O13) -/

/-- An instruction whose handler sets `pc`, with no auto-increment after it (R130, R135). -/
theorem exec_jumps {i : Instr} {s : State} {target : Word} {n : Nat}
    (h : exec i s = finish false (.done (s.setPc target))) (hn : target.toNat = n) :
    ∃ t, exec i s = .next t ∧ t.pc.toNat = n ∧ OnlyChanges [.pc] s t :=
  ⟨_, h, hn, setPc_frame target s⟩

theorem addrOperand_toNat (nnn : Addr12) : (addrOperand nnn).toNat = nnn.toNat :=
  BitVec.toNat_setWidth_of_le (by decide)

theorem wideReg_toNat (s : State) (r : Nibble) : (wideReg s r).toNat = (s.reg r).toNat :=
  BitVec.toNat_setWidth_of_le (by decide)

/-- The sum of BNNN is at most 0x10FE, so it does not wrap (R135). -/
theorem addrOperand_add_wideReg_toNat (nnn : Addr12) (s : State) (r : Nibble) :
    (addrOperand nnn + wideReg s r).toNat = nnn.toNat + (s.reg r).toNat := by
  have haddr := addrOperand_toNat_le nnn
  have hreg := wideReg_toNat_le s r
  rw [BitVec.toNat_add_of_lt (by omega), addrOperand_toNat, wideReg_toNat]

/-- Settles O13, by the two targets as numbers. -/
theorem jumpsSetProgramCounter : Obligations.JumpsSetProgramCounter :=
  fun nnn s =>
    ⟨⟨decodeOfEncodeIsInstruction (.jp nnn) rfl, exec_jumps rfl (addrOperand_toNat nnn)⟩,
      ⟨decodeOfEncodeIsInstruction (.jpV0 nnn) rfl, exec_jumps rfl (addrOperand_add_wideReg_toNat nnn s 0#4)⟩⟩

/-! ## Skips (O14, O15) -/

/-- The auto-increment after a skip handler comes to the `pc` of a skip, also while the engine waits (R94). -/
theorem autoIncrement_skipIf_pc (c : Bool) (s : State) : (autoIncrement (skipIf c s)).pc = s.skipPc c := by
  cases c <;> cases hw : s.waiting <;> simp [State.skipPc, State.nextPc, hw]

/-- An instruction whose handler skips on a condition (R131). -/
theorem exec_skips {i : Instr} {s : State} {c : Bool} (h : exec i s = finish true (.done (skipIf c s))) :
    ∃ t, exec i s = .next t ∧ t.pc = s.skipPc c ∧ OnlyChanges [.pc] s t :=
  ⟨_, h, autoIncrement_skipIf_pc c s, (skipIf_frame c s).thenIncrement.of_subset (by simp)⟩

/-- Settles O14: both are skips, on opposite conditions. -/
theorem skipsOnImmediate : Obligations.SkipsOnImmediate :=
  fun x nn _ =>
    ⟨⟨decodeOfEncodeIsInstruction (.seImm x nn) rfl, exec_skips rfl⟩,
      ⟨decodeOfEncodeIsInstruction (.sneImm x nn) rfl, exec_skips rfl⟩⟩

/-- Settles O15: both are skips, on opposite conditions. -/
theorem skipsOnRegister : Obligations.SkipsOnRegister :=
  fun x y _ =>
    ⟨⟨decodeOfEncodeIsInstruction (.seReg x y) rfl, exec_skips rfl⟩,
      ⟨decodeOfEncodeIsInstruction (.sneReg x y) rfl, exec_skips rfl⟩⟩

/-! ## Call and return (O16, O17, O18) -/

theorem exec_call_pushes {s : State} (h : s.sp.val < 16) (nnn : Addr12) :
    exec (.call nnn) s = .next { s with
      stack := s.stack.set s.sp.val s.pc h, sp := ⟨s.sp.val + 1, by omega⟩, pc := addrOperand nnn } := by
  obtain ⟨_, he⟩ | ⟨hfull, -⟩ := exec_call_cases nnn s
  · exact he
  · omega

theorem exec_ret_pops {s : State} {v : Word} (hpos : 0 < s.sp.val) (hv : s.stack[s.sp.val - 1]? = some v) :
    exec .ret s = .next (autoIncrement { s with sp := ⟨s.sp.val - 1, by omega⟩, pc := v }) := by
  obtain ⟨w, -, hw, he⟩ | ⟨hempty, -⟩ := exec_ret_cases s
  · cases hw.symm.trans hv
    exact he
  · omega

/-- Settles O16: a push writes one cell, and an overflow changes the halt record only. -/
theorem callPushesOwnAddress : Obligations.CallPushesOwnAddress := by
  unfold Obligations.CallPushesOwnAddress
  intro nnn s
  refine ⟨decodeOfEncodeIsInstruction (.call nnn) rfl, fun hfit => ?_,
    fun hfull => ⟨_, exec_call_overflow hfull nnn, rfl, takeError_frame _ s⟩⟩
  exact ⟨_, exec_call_pushes hfit nnn, rfl, Vector.getElem?_set_self hfit,
    fun k hk => Vector.getElem?_set_ne hfit hk.symm, addrOperand_toNat nnn, stackPc_frame rfl⟩

/-- Settles O17: a pop clears no cell, and an underflow changes the halt record only. -/
theorem returnPopsPastCall : Obligations.ReturnPopsPastCall := by
  unfold Obligations.ReturnPopsPastCall
  intro s
  refine ⟨decodeOfEncodeIsInstruction .ret rfl, fun v hpos hv => ?_,
    fun hempty => ⟨_, exec_ret_underflow hempty, rfl, takeError_frame _ s⟩⟩
  exact ⟨_, exec_ret_pops hpos hv, by simp, by simp, by simp,
    (stackPc_frame rfl).thenIncrement.of_subset (by simp)⟩

/-- Settles O18: the newest entry of the stack the call left is the call's own address (O16), which the return
pops (O17). -/
theorem returnGoesPastMatchingCall : Obligations.ReturnGoesPastMatchingCall := by
  unfold Obligations.ReturnGoesPastMatchingCall
  intro nnn s hfit
  obtain ⟨-, hpush, -⟩ := callPushesOwnAddress nnn s
  obtain ⟨t, ht, hsp, htop, -⟩ := hpush hfit
  refine ⟨t, ht, fun u hstack husp hwait => ?_⟩
  have hdeep : u.sp.val = s.sp.val + 1 := husp ▸ hsp
  have hutop : u.stack[u.sp.val - 1]? = some s.pc := by rw [hstack, hdeep, Nat.add_sub_cancel, htop]
  obtain ⟨-, hpop, -⟩ := returnPopsPastCall u
  obtain ⟨v, hv, hvsp, -, hvpc, hframe⟩ := hpop s.pc (by omega) hutop
  exact ⟨v, hv, by simpa [hwait] using hvpc, Fin.ext (by omega), hframe .halt (by simp)⟩

end Sys2Proof.Machine
end

section
/-! The family 43_memory_index.md: three instructions set `I` and continue after themselves, with the new `I` as
arithmetic on the old values; CXNN uses up one free byte. -/

namespace Sys2Proof.Machine

/-! ## Instructions that set the index register (10_state.md R24) -/

/-- An instruction whose handler sets `I`, then continues (R150, R151, R154). -/
theorem exec_sets_index {i : Instr} {s : State} {v : Word} {n : Nat}
    (h : exec i s = finish true (.done (s.setI v))) (hn : v.toNat = n) :
    ∃ t, exec i s = .next t ∧ t.I.toNat = n ∧ t.pc = s.nextPc ∧ OnlyChanges [.index, .pc] s t :=
  ⟨_, h, by simpa using hn, by simp [State.nextPc], (setI_frame v s).thenIncrement⟩

/-- Settles O21, by the address field as a number. -/
theorem loadIndexSetsIndex : Obligations.LoadIndexSetsIndex :=
  fun nnn _ => ⟨decodeOfEncodeIsInstruction (.ldI nnn) rfl, exec_sets_index rfl (addrOperand_toNat nnn)⟩

/-- The sum of FX1E wraps at 65536 (R151). -/
theorem index_add_wideReg_toNat (s : State) (x : Nibble) :
    (s.I + wideReg s x).toNat = (s.I.toNat + (s.reg x).toNat) % 65536 := by
  rw [BitVec.toNat_add, wideReg_toNat]

/-- Settles O22, by the wrapping sum: no register is written, so no flag. -/
theorem addIndexWrapsWithoutFlag : Obligations.AddIndexWrapsWithoutFlag :=
  fun x s => ⟨decodeOfEncodeIsInstruction (.addI x) rfl, exec_sets_index rfl (index_add_wideReg_toNat s x)⟩

/-! ## Glyph addresses (O24) -/

theorem inHexDomain_iff (v : Byte) : inHexDomain v = true ↔ v.toNat ≤ 15 :=
  decide_eq_true_iff

/-- Glyphs lie 5 bytes apart from `FONT_BASE`; only the sum with it can wrap, since 5 times a byte is below 65536. -/
theorem glyphAddr_toNat (fontBase : Word) (d : Byte) :
    (glyphAddr fontBase d).toNat = (fontBase.toNat + 5 * d.toNat) % 65536 := by
  have hwide : (d.zeroExtend 16).toNat = d.toNat := BitVec.toNat_setWidth_of_le (by decide)
  simp [glyphAddr, BitVec.toNat_add, BitVec.toNat_mul, hwide]

theorem exec_ldFont_digit {x : Nibble} {s : State} (h : (s.reg x).toNat ≤ 15) :
    exec (.ldFont x) s = finish true (.done (s.setI (glyphAddr s.params.fontBase (s.reg x)))) :=
  if_pos ((inHexDomain_iff _).mpr h)

theorem exec_ldFont_refused {x : Nibble} {s : State} (h : 15 < (s.reg x).toNat) :
    exec (.ldFont x) s = .refused .outOfDomain :=
  if_neg fun hd => absurd ((inHexDomain_iff _).mp hd) (by omega)

/-- Settles O24: a digit's glyph address as a number, and the refusal above 15. -/
theorem fontAddressOfHexDigit : Obligations.FontAddressOfHexDigit :=
  fun x _ => ⟨decodeOfEncodeIsInstruction (.ldFont x) rfl,
    fun hdigit => exec_sets_index (exec_ldFont_digit hdigit) (glyphAddr_toNat _ _), exec_ldFont_refused⟩

/-! ## The random byte (O23) -/

/-- A masked byte has no bit where the mask has 0. -/
theorem masked_and_not_mask (b nn : Byte) : (b &&& nn) &&& ~~~nn = 0#8 := by
  rw [BitVec.and_assoc, BitVec.and_not_self]
  exact BitVec.and_zero

/-- CXNN writes its register and takes the draw after the last (R153). -/
theorem rnd_handler_frame (x : Nibble) (nn : Byte) (s : State) :
    OnlyChanges [.regs, .draws] s ((s.setReg x (Config.freeByte s.draws &&& nn)).setDraws (s.draws + 1)) :=
  (setReg_frame x _ s).trans (setDraws_frame _ _) (by simp)

/-- Settles O23: the free byte is never looked into, so the statement holds for every value of it. -/
theorem randomByteIsMasked : Obligations.RandomByteIsMasked := by
  unfold Obligations.RandomByteIsMasked
  intro x nn s
  refine ⟨decodeOfEncodeIsInstruction (.rnd x nn) rfl, _, rfl, by simp, by simp [masked_and_not_mask], by simp,
    by simp [State.nextPc], fun r hr => ?_, (rnd_handler_frame x nn s).thenIncrement.of_subset (by simp)⟩
  have hne : r ≠ x := by simpa using hr
  simp [hne]

end Sys2Proof.Machine
end

section
/-! The family 44_display.md: CLS blanks the screen; DXYN clears `x[15]` and toggles the pixels under the sprite's
1 bits, so that two draws of one sprite cancel. -/

namespace Sys2Proof.Machine

/-! ## The cleared screen (O25) -/

/-- Settles O25, by the blank framebuffer. -/
theorem clearTurnsEveryPixelOff : Obligations.ClearTurnsEveryPixelOff :=
  fun s => ⟨decodeOfEncodeIsInstruction .cls rfl, _, rfl, by simp, by simp [State.nextPc],
    (setFB_frame _ s).thenIncrement⟩

/-! ## What a draw leaves (R161) -/

/-- DXYN with every sprite byte inside memory: the whole sprite is toggled, then `pc` moves on. -/
theorem exec_drw_fits (x y : Nibble) {n : Nibble} {s : State} (hfit : s.I.toNat + n.toNat ≤ 4096 ∨ n = 0#4) :
    ∃ u, exec (.drw x y n) s = .next (autoIncrement u) ∧
      Toggles (s.setReg flagReg 0#8) u (spriteBit s (startColumn s x) (startRow s y) n.toNat) := by
  obtain ⟨u, hu, htog⟩ := drawRows_done (x0 := startColumn s x) (y := startRow s y)
    (hfit.imp_right (congrArg BitVec.toNat)) (s.setReg flagReg 0#8)
  exact ⟨u, by simp [exec, execDrw, hu], htog⟩

/-- DXYN that runs out of memory: the rows below 4096 are toggled, then the access error is raised. -/
theorem exec_drw_overruns (x y : Nibble) {n : Nibble} {s : State} (hover : 4096 < s.I.toNat + n.toNat)
    (hn : n ≠ 0#4) :
    ∃ u, exec (.drw x y n) s = .next (takeError (.outOfRangeAccess (firstOutOfRange s.I)) u) ∧
      Toggles (s.setReg flagReg 0#8) u (spriteBit s (startColumn s x) (startRow s y) (4096 - s.I.toNat)) := by
  have hpos : 0 < n.toNat := Nat.pos_of_ne_zero fun h0 => hn (BitVec.eq_of_toNat_eq h0)
  obtain ⟨u, hu, htog⟩ := drawRows_raise (x0 := startColumn s x) (y := startRow s y) hpos hover
    (s.setReg flagReg 0#8)
  exact ⟨u, by simp [exec, execDrw, hu], htog⟩

/-- With `x[15]` cleared first, it tells afterwards whether a pixel of the set was on. -/
theorem Toggles.flag_iff_hits {s u : State} {P : Nat → Nat → Bool} (h : Toggles (s.setReg flagReg 0#8) u P) :
    (u.reg flagReg = 0#8 ∨ u.reg flagReg = 1#8) ∧ (u.reg flagReg = 1#8 ↔ Hits s P) := by
  by_cases hhit : Hits s P
  · simp [h.hit hhit, hhit]
  · have hzero : u.reg flagReg = 0#8 := (h.noHit hhit).trans (by simp)
    simp [hzero, hhit]

theorem Toggles.drawnRows {s u : State} {x0 y0 n : Nat}
    (h : Toggles (s.setReg flagReg 0#8) u (spriteBit s x0 y0 n)) : DrawnRows s u x0 y0 n :=
  ⟨h.pixels, h.flag_iff_hits⟩

theorem Toggles.otherRegsSame {s u : State} {P : Nat → Nat → Bool} (h : Toggles (s.setReg flagReg 0#8) u P) :
    OtherRegsSame [flagReg] s u := fun q hq => by
  have hne : q ≠ flagReg := by simpa using hq
  simp [h.regs q hne, hne]

theorem Toggles.drawFrame {s u : State} {P : Nat → Nat → Bool} (h : Toggles (s.setReg flagReg 0#8) u P) :
    OnlyChanges [.regs, .screen] s u :=
  (setReg_frame flagReg 0#8 s).trans h.only (by simp)

/-! The end of the step leaves framebuffer and registers alone. -/

@[simp] theorem drawnRows_autoIncrement {s u : State} {x0 y0 n : Nat} :
    DrawnRows s (autoIncrement u) x0 y0 n ↔ DrawnRows s u x0 y0 n := by
  simp [DrawnRows]

@[simp] theorem otherRegsSame_autoIncrement {rs : List Nibble} {s u : State} :
    OtherRegsSame rs s (autoIncrement u) ↔ OtherRegsSame rs s u := by
  simp [OtherRegsSame]

/-- Settles O26: the handler toggles the sprite's pixels, all of them or those of the rows below 4096. -/
theorem drawTogglesSpritePixels : Obligations.DrawTogglesSpritePixels := by
  unfold Obligations.DrawTogglesSpritePixels
  intro x y n s
  refine ⟨decodeOfEncodeIsInstruction (.drw x y n) rfl, fun hfit => ?_, fun ⟨hover, hn⟩ => ?_⟩
  · obtain ⟨u, he, htog⟩ := exec_drw_fits x y hfit
    have hpc : u.pc = s.pc := htog.drawFrame .pc (by simp)
    have hwait : u.waiting = s.waiting := (htog.drawFrame .latch (by simp)).1
    exact ⟨_, he, drawnRows_autoIncrement.mpr htog.drawnRows, by simp [State.nextPc, hpc, hwait],
      otherRegsSame_autoIncrement.mpr htog.otherRegsSame, htog.drawFrame.thenIncrement⟩
  · obtain ⟨u, he, htog⟩ := exec_drw_overruns x y hover hn
    exact ⟨_, he, htog.drawnRows, rfl, htog.otherRegsSame, htog.drawFrame.thenError _⟩

/-! ## Two draws (R163) -/

/-- A sprite depends on `I` and memory only. -/
theorem spriteBit_congr {s t : State} (hI : t.I = s.I) (hmem : ∀ a, t.mem.byteAt a = s.mem.byteAt a)
    (x0 y0 n px py : Nat) : spriteBit t x0 y0 n px py = spriteBit s x0 y0 n px py := by
  simp only [spriteBit, hI, hmem]

/-- Two draws of the same pixels, one after the other: every pixel is as before, and the second draw hits a pixel
exactly when the first turned one on. -/
theorem DrawnRows.twice {s t u : State} {x0 y0 n : Nat} (hst : DrawnRows s t x0 y0 n) (htu : DrawnRows t u x0 y0 n)
    (hsprite : ∀ px py, spriteBit t x0 y0 n px py = spriteBit s x0 y0 n px py) :
    (∀ px py, pixelOn u.FB px py = pixelOn s.FB px py) ∧
      (u.reg flagReg = 1#8 ↔
        ∃ px py, px < 64 ∧ py < 32 ∧ pixelOn s.FB px py = false ∧ spriteBit s x0 y0 n px py = true) := by
  obtain ⟨hfirst, -⟩ := hst
  obtain ⟨hsecond, -, hflag⟩ := htu
  constructor
  · intro px py
    by_cases hin : px < 64 ∧ py < 32
    · rw [hsecond px py hin.1 hin.2, hfirst px py hin.1 hin.2, hsprite, Bool.xor_assoc, Bool.xor_self, Bool.xor_false]
    · rw [pixelOn_outside hin, pixelOn_outside hin]
  · rw [hflag]
    refine exists₂_congr fun px py => and_congr_right fun hx => and_congr_right fun hy => ?_
    rw [hfirst px py hx hy, hsprite]
    exact and_congr_left fun hbit => by simp [hbit]

/-- Settles O27, by O26 for either draw: the first leaves `I` and memory, so the second toggles the same pixels. -/
theorem doubleDrawRestoresScreen : Obligations.DoubleDrawRestoresScreen := by
  unfold Obligations.DoubleDrawRestoresScreen
  intro x y n s t hfit ht hx hy
  obtain ⟨-, hfirst, -⟩ := drawTogglesSpritePixels x y n s
  obtain ⟨t', ht', hst, -, -, hframe⟩ := hfirst hfit
  obtain rfl : t' = t := Host.Outcome.next.inj (ht'.symm.trans ht)
  have hI : t'.I = s.I := hframe .index (by simp)
  have hmem : ∀ a, t'.mem.byteAt a = s.mem.byteAt a := hframe .mem (by simp)
  obtain ⟨-, hsecond, -⟩ := drawTogglesSpritePixels x y n t'
  obtain ⟨u, hu, htu, -⟩ := hsecond (hI ▸ hfit)
  rw [hx, hy] at htu
  exact ⟨u, hu, hst.twice htu (spriteBit_congr hI hmem _ _ _)⟩

end Sys2Proof.Machine
end

section
/-! The family 45_input.md: a single press changes one bit of the key state, upwards; EX9E and EXA1 are skips on one
bit of it; FX0A enters its wait, ends it or stays in it. -/

namespace Sys2Proof.Machine

/-! ## KEY_SELECT (O30) -/

/-- The lowest key of a set, given as the lowest bit that is 1. -/
theorem lowestKey_eq {keys : Word} {k : Nat} (hk : k < 16) (hheld : keys.getLsbD k = true)
    (hbelow : ∀ j < k, keys.getLsbD j = false) : lowestKey keys = BitVec.ofNat 4 k := by
  have hfind : (List.range 16).find? (keyHeld keys) = some k :=
    List.find?_range_eq_some.mpr ⟨hheld, List.mem_range.mpr hk, fun j hj => by simp [keyHeld, hbelow j hj]⟩
  rw [lowestKey, hfind]

/-- Where a key went down, the default takes the lowest such key (R173). -/
theorem keySelectDefault_of_pressed {prev cur : Word} {k : Nat} (hk : k < 16)
    (hpress : (cur &&& ~~~prev).getLsbD k = true) (hbelow : ∀ j < k, (cur &&& ~~~prev).getLsbD j = false) :
    keySelectDefault prev cur = BitVec.ofNat 4 k := by
  have hne : cur &&& ~~~prev ≠ 0#16 := fun h0 => by simp [h0] at hpress
  rw [keySelectDefault, if_pos hne, lowestKey_eq hk hpress hbelow]

/-- Where no key went down, the default takes the lowest key that differs (R173). -/
theorem keySelectDefault_of_released {prev cur : Word} {k : Nat} (hk : k < 16) (hnone : cur &&& ~~~prev = 0#16)
    (hdiff : (prev ^^^ cur).getLsbD k = true) (hbelow : ∀ j < k, (prev ^^^ cur).getLsbD j = false) :
    keySelectDefault prev cur = BitVec.ofNat 4 k := by
  rw [keySelectDefault, if_neg (not_not_intro hnone), lowestKey_eq hk hdiff hbelow]

theorem isSinglePress_iff {prev cur : Word} {k : Nat} :
    isSinglePress prev cur k = true ↔ prev ^^^ cur = 1#16 <<< k ∧ prev.getLsbD k = false := by
  simp [isSinglePress, keyHeld]

/-- After a single press of k, key k is the only one that differs. -/
theorem differs_of_isSinglePress {prev cur : Word} {k : Nat} (hk : k < 16) (h : isSinglePress prev cur k = true)
    (j : Nat) : (prev ^^^ cur).getLsbD j = decide (k = j) := by
  obtain ⟨hxor, -⟩ := isSinglePress_iff.mp h
  rw [hxor, ← BitVec.twoPow_eq, BitVec.getLsbD_twoPow, decide_eq_true hk, Bool.true_and]

/-- After a single press of k, the keys that went down are the keys that differ: none was released. -/
theorem wentDown_eq_differs {prev cur : Word} {k : Nat} (hk : k < 16) (h : isSinglePress prev cur k = true) :
    cur &&& ~~~prev = prev ^^^ cur := by
  obtain ⟨-, hup⟩ := isSinglePress_iff.mp h
  refine BitVec.eq_of_getLsbD_eq fun j hj => ?_
  rw [BitVec.getLsbD_and, BitVec.getLsbD_not, BitVec.getLsbD_xor, decide_eq_true hj, Bool.true_and]
  by_cases hjk : k = j
  · rw [← hjk, hup, Bool.not_false, Bool.and_true, Bool.false_xor]
  · have hsame : prev.getLsbD j = cur.getLsbD j := by simpa [hjk] using differs_of_isSinglePress hk h j
    rw [hsame, Bool.and_not_self, Bool.xor_self]

/-- A change of key state is a single press of one key at most. -/
theorem isSinglePress_unique {prev cur : Word} {j k : Nat} (hj : j < 16) (hk : k < 16)
    (hpj : isSinglePress prev cur j = true) (hpk : isSinglePress prev cur k = true) : j = k := by
  have hboth : decide (j = k) = decide (k = k) :=
    (differs_of_isSinglePress hj hpj k).symm.trans (differs_of_isSinglePress hk hpk k)
  simpa using hboth

theorem singlePress_eq {prev cur : Word} {k : Nat} (hk : k < 16) (hpress : isSinglePress prev cur k = true) :
    singlePress prev cur = some (BitVec.ofNat 4 k) := by
  have hfirst : ∀ j < k, !isSinglePress prev cur j := fun j hj => by
    rw [Bool.not_eq_true', Bool.eq_false_iff]
    exact fun hpj => hj.ne (isSinglePress_unique (hj.trans hk) hk hpj hpress)
  rw [singlePress, List.find?_range_eq_some.mpr ⟨hpress, List.mem_range.mpr hk, hfirst⟩, Option.map_some]

/-- The machine's `KEY_SELECT` meets the constraint of R173: its free value is met outside a single press only. -/
theorem keySelect_admissible : KeySelectAdmissible keySelect := fun _ _ _ hk hpress => by
  rw [keySelect, singlePress_eq hk hpress]

/-- The spec's default meets the constraint of R173: the key of a single press is the lowest that went down. -/
theorem keySelectDefault_admissible : KeySelectAdmissible keySelectDefault := by
  intro prev cur k hk hpress
  have hbits := differs_of_isSinglePress hk hpress
  rw [← wentDown_eq_differs hk hpress] at hbits
  exact keySelectDefault_of_pressed hk (by simp [hbits]) fun j hj => by simp [hbits, hj.ne']

/-- Settles O30: both choices are admissible, and the default is the lowest key of one of two sets. -/
theorem keySelectOfSinglePress : Obligations.KeySelectOfSinglePress :=
  ⟨keySelect_admissible, keySelectDefault_admissible,
    fun _ _ _ hk => ⟨keySelectDefault_of_pressed hk, keySelectDefault_of_released hk⟩⟩

/-! ## Key skips (O28) -/

/-- An instruction that tests the key `x[X]`: a skip on its condition, refused where `x[X]` is no key (R170, R171,
R174). -/
theorem exec_tests_key {i : Instr} {x : Nibble} {s : State} {c : Bool}
    (h : exec i s = if inHexDomain (s.reg x) then finish true (.done (skipIf c s)) else .refused .outOfDomain) :
    ((s.reg x).toNat ≤ 15 → ∃ t, exec i s = .next t ∧ t.pc = s.skipPc c ∧ OnlyChanges [.pc] s t) ∧
      (15 < (s.reg x).toNat → exec i s = .refused .outOfDomain) := by
  constructor
  · intro hkey
    exact exec_skips (h.trans (if_pos ((inHexDomain_iff _).mpr hkey)))
  · intro hbig
    exact h.trans (if_neg fun hd => hbig.not_ge ((inHexDomain_iff _).mp hd))

/-- Settles O28: both test one key, on opposite states of it. -/
theorem keySkipsTestOneKey : Obligations.KeySkipsTestOneKey := by
  unfold Obligations.KeySkipsTestOneKey
  intro x s
  obtain ⟨hskp, hskpRefused⟩ := exec_tests_key (i := .skp x) (s := s) rfl
  obtain ⟨hsknp, hsknpRefused⟩ := exec_tests_key (i := .sknp x) (s := s) rfl
  exact ⟨decodeOfEncodeIsInstruction (.skp x) rfl, decodeOfEncodeIsInstruction (.sknp x) rfl,
    fun hkey => ⟨hskp hkey, hsknp hkey⟩, fun hbig => ⟨hskpRefused hbig, hsknpRefused hbig⟩⟩

/-! ## The wait for a key (O29) -/

/-- A key index is a byte of the same value. -/
theorem keyByte_toNat (k : Nibble) : (k.zeroExtend 8).toNat = k.toNat :=
  BitVec.toNat_setWidth_of_le (by decide)

/-- The auto-increment leaves a waiting engine as it is (40_execution_cycle.md R94). -/
theorem autoIncrement_of_waiting {s : State} (hw : s.waiting = true) : autoIncrement s = s :=
  if_pos hw

theorem keyWait_enters {s : State} (x : Nibble) (hw : s.waiting = false) : keyWait x s = s.setLatch true s.keys :=
  if_pos hw

theorem keyWait_ends {s : State} (x : Nibble) (hw : s.waiting = true) (hk : s.keys ≠ s.waitKeys) :
    keyWait x s = (s.setReg x ((keySelect s.waitKeys s.keys).zeroExtend 8)).setLatch false s.waitKeys := by
  simp [keyWait, hw, hk]

theorem keyWait_stays {s : State} (x : Nibble) (hw : s.waiting = true) (hk : s.keys = s.waitKeys) :
    keyWait x s = s := by
  simp [keyWait, hw, hk]

/-- FX0A runs its handler, then the auto-increment. -/
theorem exec_ldKey (x : Nibble) (s : State) : exec (.ldKey x) s = .next (autoIncrement (keyWait x s)) := rfl

/-- Settles O29, by the three ends of the handler: the auto-increment moves `pc` after the second only. -/
theorem keyWaitEndsOnKeyChange : Obligations.KeyWaitEndsOnKeyChange := by
  unfold Obligations.KeyWaitEndsOnKeyChange
  intro x s
  rw [exec_ldKey]
  refine ⟨decodeOfEncodeIsInstruction (.ldKey x) rfl, fun hw => ?_, fun hw hk => ?_, fun hw hk => ?_⟩
  · rw [keyWait_enters x hw, autoIncrement_of_waiting (State.setLatch_waiting s true s.keys)]
    exact ⟨_, rfl, rfl, rfl, setLatch_frame true s.keys s⟩
  · have hends := keyWait_ends x hw hk
    refine ⟨_, rfl, by simp [hends], by simp [hends], ?_, by simp [hends], fun r hr => ?_,
      (keyWait_frame x s).thenIncrement⟩
    · rw [autoIncrement_reg, hends, State.setLatch_reg, setReg_reg, if_pos rfl, keyByte_toNat]
    · rw [autoIncrement_reg, keyWait_reg_other (List.ne_of_not_mem_cons hr)]
  · rw [keyWait_stays x hw hk, autoIncrement_of_waiting hw]

end Sys2Proof.Machine
end

section
/-! The family 46_timers_bcd_bulk.md: the timer copies, and the block accesses of FX33, FX55 and FX65, each of which
either fits in memory or ends in the access error at the first address past it. -/

namespace Sys2Proof.Machine

/-! ## Block stores (20_memory.md R54) -/

/-- A block store leaves the bytes of the addresses below 4096 stored, and then is done or raises the access error. -/
theorem storeBytes_outcome {s : State} (hm : s.MemCanonical) {addr : Word} {bs : List Byte} (hne : bs ≠ []) :
    ∃ m, StoredFrom addr.toNat bs s (s.setMem m) ∧
      ((addr.toNat + bs.length ≤ 4096 ∧ storeBytes addr bs s = .done (s.setMem m)) ∨
        (4096 < addr.toNat + bs.length ∧
          storeBytes addr bs s = .raise (.outOfRangeAccess (firstOutOfRange addr)) (s.setMem m))) := by
  obtain hfit | hover := le_or_gt (addr.toNat + bs.length) 4096
  · exact ⟨_, storeBytes_stored hm hfit, .inl ⟨hfit, storeBytes_done hfit s⟩⟩
  · exact ⟨_, storeBytes_stored_partly hm hover, .inr ⟨hover, storeBytes_raise hne hover s⟩⟩

@[simp] theorem storedFrom_autoIncrement {base : Nat} {bs : List Byte} {s t : State} :
    StoredFrom base bs s (autoIncrement t) ↔ StoredFrom base bs s t := by
  simp [StoredFrom]

/-- A byte of a stored block reads back at its address. -/
theorem StoredFrom.byteAt_add {base k : Nat} {bs : List Byte} {s t : State} {v : Byte} (h : StoredFrom base bs s t)
    (hk : bs[k]? = some v) (hin : base + k < 4096) : t.mem.byteAt (base + k) = v := by
  obtain ⟨hlt, rfl⟩ := List.getElem?_eq_some_iff.mp hk
  rw [h, dif_pos (by omega)]
  simp

/-! ## FX33 (O32) -/

theorem bcdDigits_eq (v : Byte) :
    ∃ d100 d10 d1, bcdDigits v = [d100, d10, d1] ∧
      d100.toNat = v.toNat / 100 ∧ d10.toNat = v.toNat / 10 % 10 ∧ d1.toNat = v.toNat % 10 := by
  have hv := v.isLt
  refine ⟨_, _, _, rfl, ?_, ?_, ?_⟩ <;> rw [BitVec.toNat_ofNat] <;> omega

/-- FX33 is the block store of the digits. -/
theorem exec_ldBcd (x : Nibble) (s : State) :
    exec (.ldBcd x) s = finish true (storeBytes s.I (bcdDigits (s.reg x)) s) := rfl

/-- Settles O32, by the two ends of the block store of three digits. -/
theorem bcdStoresThreeDigits : Obligations.BcdStoresThreeDigits := by
  unfold Obligations.BcdStoresThreeDigits
  intro x s hm
  obtain ⟨d100, d10, d1, hdigits, h100, h10, h1⟩ := bcdDigits_eq (s.reg x)
  refine ⟨decodeOfEncodeIsInstruction (.ldBcd x) rfl, ?_⟩
  rw [exec_ldBcd, hdigits]
  obtain ⟨m, hstored, ⟨hfit, h⟩ | ⟨hover, h⟩⟩ := storeBytes_outcome hm (addr := s.I) (List.cons_ne_nil d100 [d10, d1])
  · rw [h, finish_true_done]
    exact ⟨_, d100, d10, d1, rfl, h100, h10, h1, storedFrom_autoIncrement.mpr hstored,
      fun _ => ⟨by simp [State.nextPc], (setMem_frame m s).thenIncrement⟩, fun hover => absurd hfit hover.not_ge⟩
  · rw [h, finish_raise]
    exact ⟨_, d100, d10, d1, rfl, h100, h10, h1, hstored, fun hfit => absurd hfit hover.not_ge,
      fun _ => ⟨rfl, (setMem_frame m s).thenError _⟩⟩

/-! ## FX55 (O33) -/

theorem advanceI_I_toNat {x : Nibble} {s : State} (hfit : s.I.toNat + x.toNat < 4096) :
    (advanceI x s).I.toNat = s.I.toNat + x.toNat + 1 := by
  rw [advanceI, State.setI_I, BitVec.toNat_add, BitVec.toNat_ofNat, regCount]
  omega

theorem regsUpTo_getElem? {x : Nibble} {k : Nat} (hk : k ≤ x.toNat) (s : State) :
    (regsUpTo s x)[k]? = some (s.reg (BitVec.ofNat 4 k)) := by
  rw [List.getElem?_eq_getElem (by rw [regsUpTo_length]; omega), regsUpTo_getElem]

/-- FX55 is the block store of the registers; `I` advances when it is done. -/
theorem exec_storeRegs (x : Nibble) (s : State) :
    exec (.storeRegs x) s = finish true ((storeBytes s.I (regsUpTo s x) s).andThen (advanceI x)) := rfl

/-- Settles O33, by the two ends of the block store of X + 1 registers. -/
theorem bulkStoreWritesRegisters : Obligations.BulkStoreWritesRegisters := by
  unfold Obligations.BulkStoreWritesRegisters
  intro x s hm
  have hlen := regsUpTo_length s x
  refine ⟨decodeOfEncodeIsInstruction (.storeRegs x) rfl, ?_⟩
  rw [exec_storeRegs]
  obtain ⟨m, hstored, ⟨hfit, h⟩ | ⟨hover, h⟩⟩ := storeBytes_outcome hm (addr := s.I) (bs := regsUpTo s x)
    (List.ne_nil_of_length_eq_add_one hlen)
  · rw [h, andThen_done, finish_true_done]
    have hI := advanceI_I_toNat (x := x) (s := s.setMem m) (by rw [State.setMem_I]; omega)
    have hframe : OnlyChanges [.mem, .index] s (advanceI x (s.setMem m)) :=
      (setMem_frame m s).trans (advanceI_frame x _) (by simp)
    exact ⟨_, _, rfl, hlen, fun k hk => regsUpTo_getElem? hk s, storedFrom_autoIncrement.mpr hstored,
      fun _ => ⟨by simpa using hI, by simp [State.nextPc], hframe.thenIncrement⟩, fun _ => by omega⟩
  · rw [h, andThen_raise, finish_raise]
    exact ⟨_, _, rfl, hlen, fun k hk => regsUpTo_getElem? hk s, hstored, fun _ => by omega,
      fun _ => ⟨rfl, (setMem_frame m s).thenError _⟩⟩

/-! ## FX65 (O34) -/

/-- A block load of registers 0 to X loads those of the addresses below 4096, and then is done or raises the access
error. -/
theorem loadBytes_outcome (x : Nibble) (s : State) :
    ∃ u, u = { s with x := u.x } ∧
      (∀ q : Nibble, u.reg q =
        if q.toNat ≤ x.toNat ∧ s.I.toNat + q.toNat < 4096 then s.mem.byteAt (s.I.toNat + q.toNat) else s.reg q) ∧
      ((s.I.toNat + x.toNat < 4096 ∧ loadBytes s.I 0#4 (regCount x) s = .done u) ∨
        (4096 ≤ s.I.toNat + x.toNat ∧
          loadBytes s.I 0#4 (regCount x) s = .raise (.outOfRangeAccess (firstOutOfRange s.I)) u)) := by
  have hx := x.isLt
  have hr : (0#4).toNat + regCount x ≤ 16 := by
    rw [BitVec.toNat_zero, regCount]
    omega
  obtain hfit | hover := lt_or_ge (s.I.toNat + x.toNat) 4096
  · obtain ⟨u, hu, honly, hreg⟩ := loadBytes_done (addr := s.I) (by rw [regCount]; omega) hr s
    refine ⟨u, honly, fun q => ?_, .inl ⟨hfit, hu⟩⟩
    rw [hreg q, BitVec.toNat_zero, Nat.sub_zero, Nat.zero_add]
    exact if_congr (by rw [regCount]; omega) rfl rfl
  · obtain ⟨u, hu, honly, hreg⟩ := loadBytes_raise (addr := s.I) (n := regCount x) (Nat.succ_pos _)
      (by rw [regCount]; omega) hr s
    refine ⟨u, honly, fun q => ?_, .inr ⟨hover, hu⟩⟩
    rw [hreg q, BitVec.toNat_zero, Nat.sub_zero, Nat.zero_add]
    exact if_congr (by omega) rfl rfl

/-- FX65 is the block load of the registers; `I` advances when it is done. -/
theorem exec_loadRegs (x : Nibble) (s : State) :
    exec (.loadRegs x) s = finish true ((loadBytes s.I 0#4 (regCount x) s).andThen (advanceI x)) := rfl

/-- Settles O34, by the two ends of the block load of X + 1 registers. -/
theorem bulkLoadReadsRegisters : Obligations.BulkLoadReadsRegisters := by
  unfold Obligations.BulkLoadReadsRegisters
  intro x s
  refine ⟨decodeOfEncodeIsInstruction (.loadRegs x) rfl, ?_⟩
  rw [exec_loadRegs]
  obtain ⟨u, honly, hreg, ⟨hfit, h⟩ | ⟨hover, h⟩⟩ := loadBytes_outcome x s
  · rw [h, andThen_done, finish_true_done]
    have hu := regs_frame honly
    have hframe : OnlyChanges [.regs, .index] s (advanceI x u) := hu.trans (advanceI_frame x u) (by simp)
    have huI : u.I = s.I := hu .index (by simp)
    have hupc : u.pc = s.pc := hu .pc (by simp)
    have hI := advanceI_I_toNat (x := x) (s := u) (by rwa [huI])
    obtain ⟨huw, -⟩ : Unchanged .latch s u := hu .latch (by simp)
    exact ⟨_, rfl, by simpa using hreg,
      fun _ => ⟨by simpa [huI] using hI, by simp [State.nextPc, huw, hupc], hframe.thenIncrement⟩,
      fun hover => absurd hfit hover.not_gt⟩
  · rw [h, andThen_raise, finish_raise]
    exact ⟨_, rfl, hreg, fun hfit => absurd hfit hover.not_gt, fun _ => ⟨rfl, (regs_frame honly).thenError _⟩⟩

/-! ## A load after a store (O35) -/

/-- Settles O35, by O33 for the store and O34 for the load, which meet at the stored bytes. -/
theorem bulkStoreThenLoadRestores : Obligations.BulkStoreThenLoadRestores := by
  unfold Obligations.BulkStoreThenLoadRestores
  intro x s hm hfit
  obtain ⟨-, t, bs, ht, hlen, hbs, hstored, hinside, -⟩ := bulkStoreWritesRegisters x s hm
  obtain ⟨htI, -⟩ := hinside hfit
  refine ⟨t, ht, htI, fun u hmem hI => ?_⟩
  obtain ⟨-, v, hv, hreg, hloaded, -⟩ := bulkLoadReadsRegisters x u
  rw [hI] at hreg hloaded
  obtain ⟨hvI, -⟩ := hloaded hfit
  refine ⟨v, hv, hvI, fun q hq => ?_⟩
  rw [hreg q, if_pos ⟨hq, by omega⟩, hmem, hstored.byteAt_add (hbs q.toNat hq) (by omega)]
  simp

/-! ## Timers (O31) -/

/-- Settles O31: each of the three writes one register or one timer, and continues after itself. -/
theorem timerInstructionsCopy : Obligations.TimerInstructionsCopy :=
  fun x s =>
    ⟨⟨decodeOfEncodeIsInstruction (.ldVxDT x) rfl, exec_writes_reg rfl⟩,
      ⟨decodeOfEncodeIsInstruction (.ldDTVx x) rfl, _, rfl, by simp, by simp [State.nextPc],
        (setDT_frame _ s).thenIncrement⟩,
      ⟨decodeOfEncodeIsInstruction (.ldSTVx x) rfl, _, rfl, by simp, by simp [State.nextPc],
        (setST_frame _ s).thenIncrement⟩⟩

end Sys2Proof.Machine
end

section
/-! The family 50_external_interfaces.md: the driver's Tick as a listed call and as free ticks, and the outputs. -/

namespace Sys2Proof.Machine

/-! ## Ticks one after another (O47) -/

theorem tickTimerTimes_zero (v : Byte) : tickTimerTimes 0 v = v :=
  BitVec.eq_of_toNat_eq (by rw [tickTimerTimes_toNat, Nat.sub_zero])

/-- One more tick falls after the others: both sides subtract, and both floors are at 0. -/
theorem tickTimerTimes_succ (n : Nat) (v : Byte) : tickTimerTimes (n + 1) v = tickTimer (tickTimerTimes n v) :=
  BitVec.eq_of_toNat_eq (by rw [tickTimer_toNat, tickTimerTimes_toNat, tickTimerTimes_toNat, Nat.sub_add_eq])

/-- Settles O47, by induction on the number of ticks. -/
theorem freeTicksAreIteratedTicks : Obligations.FreeTicksAreIteratedTicks := by
  unfold Obligations.FreeTicksAreIteratedTicks
  intro n v
  induction n with
  | zero => exact tickTimerTimes_zero v
  | succ n ih => rw [tickTimerTimes_succ, ih, Function.iterate_succ_apply']

/-! ## A listed Tick (O46) -/

/-- A listed Tick is served whether the machine is halted, waiting or running (R200). -/
theorem step_tick {s : State} {rest : List HostCall} (h : s.calls = .tick :: rest) :
    step s = .next (tick { s with calls := rest }) := by
  simp [step, h]

theorem calls_frame (s : State) (calls : List HostCall) : OnlyChanges [.inputs] s { s with calls := calls } := by
  intro p hp
  cases p <;> simp [Unchanged, State.reg] at hp ⊢

theorem tick_frame (s : State) : OnlyChanges [.delayTimer, .soundTimer] s (tick s) := by
  intro p hp
  cases p <;> simp [Unchanged] at hp ⊢

/-- Settles O46: the call is served, then `tickTimer_toNat` for each timer. -/
theorem tickDecrementsBothTimers : Obligations.TickDecrementsBothTimers := by
  unfold Obligations.TickDecrementsBothTimers
  intro s rest h
  have hframe : OnlyChanges [.delayTimer, .soundTimer, .inputs] s (tick { s with calls := rest }) :=
    (calls_frame s rest).trans (tick_frame _) (by simp +contextual)
  exact ⟨_, step_tick h, tickTimer_toNat s.DT, tickTimer_toNat s.ST, rfl, rfl, rfl, hframe⟩

/-! ## The outputs (O51) -/

/-- The buzzer sounds as long as `ST` is not 0 (R206). -/
theorem buzz_eq_true_iff (s : State) : buzz s = true ↔ s.ST ≠ 0#8 := by
  simp [buzz, timerExpired]

/-- Settles O51: `buzz` by its level, and the framebuffer and the halt record are shown as they stand. -/
theorem outputPortsShowState : Obligations.OutputPortsShowState :=
  fun s => ⟨buzz_eq_true_iff s, fun _ _ => rfl, fun _ => Iff.rfl⟩

end Sys2Proof.Machine
end

section
/-! The families 60_exceptions.md and 70_reset_and_hazards.md: which instruction raises which error, which values are
refused, and the jump to itself. -/

namespace Sys2Proof.Machine

/-! ## Access errors (O42) -/

theorem le_firstOutOfRange (addr : Word) : 4096 ≤ firstOutOfRange addr := le_max_right _ _

/-- A handler run from `s` that can raise access errors only: a raise leaves `pc` alone, and a handler that is done
has recorded no error (60_exceptions.md R223, R225). -/
def OnlyAccessErrors (s : State) : Handled → Prop
  | .done u => u.halted = s.halted
  | .raise e u => u.pc = s.pc ∧ ∃ a, e = .outOfRangeAccess a ∧ 4096 ≤ a

theorem storeBytes_onlyAccessErrors (addr : Word) (bs : List Byte) (s : State) :
    OnlyAccessErrors s (storeBytes addr bs s) := by
  obtain rfl | hne := eq_or_ne bs []
  · rfl
  obtain hfit | hover := le_or_gt (addr.toNat + bs.length) 4096
  · rw [storeBytes_done hfit]
    rfl
  · rw [storeBytes_raise hne hover]
    exact ⟨rfl, _, rfl, le_firstOutOfRange addr⟩

theorem loadBytes_onlyAccessErrors (x : Nibble) (s : State) :
    OnlyAccessErrors s (loadBytes s.I 0#4 (regCount x) s) := by
  obtain ⟨u, honly, -, ⟨-, h⟩ | ⟨-, h⟩⟩ := loadBytes_outcome x s <;> rw [h]
  · exact regs_frame honly .halt (by simp)
  · exact ⟨regs_frame honly .pc (by simp), _, rfl, le_firstOutOfRange s.I⟩

theorem drawRows_onlyAccessErrors (x0 : Nat) (addr : Word) (y n : Nat) (s : State) :
    OnlyAccessErrors s (drawRows x0 addr y n s) := by
  by_cases hfit : addr.toNat + n ≤ 4096 ∨ n = 0
  · obtain ⟨u, h, htog⟩ := drawRows_done (x0 := x0) (y := y) hfit s
    rw [h]
    exact htog.only .halt (by simp)
  · obtain ⟨u, h, htog⟩ := drawRows_raise (x0 := x0) (addr := addr) (y := y) (n := n) (by omega) (by omega) s
    rw [h]
    exact ⟨htog.only .pc (by simp), _, rfl, le_firstOutOfRange addr⟩

/-- The advance of `I` after the last access raises nothing. -/
theorem OnlyAccessErrors.andThen_advanceI {s : State} {h : Handled} (ha : OnlyAccessErrors s h) (x : Nibble) :
    OnlyAccessErrors s (h.andThen (advanceI x)) := by
  cases h with
  | done u => exact ha
  | raise e u => exact ha

/-- A step that comes to a halted state by such a handler has raised an access error and not moved `pc` (R224). -/
theorem OnlyAccessErrors.of_halted {s t : State} {h : Handled} {e : Fault} (ha : OnlyAccessErrors s h)
    (hs : s.halted = none) (hx : finish true h = .next t) (ht : t.halted = some e) :
    t.pc = s.pc ∧ ∃ a, e = .outOfRangeAccess a ∧ 4096 ≤ a := by
  cases h with
  | done u =>
    cases hx
    have hu : u.halted = none := ha.trans hs
    simp [hu] at ht
  | raise e' u =>
    cases hx
    cases ht
    exact ha

/-- Settles O42: the instructions that access memory by `OnlyAccessErrors`, call, return and SYS by their own error,
and every other instruction leaves the halt record alone (O45). -/
theorem errorsRaisedByInstruction : Obligations.ErrorsRaisedByInstruction := by
  unfold Obligations.ErrorsRaisedByInstruction
  intro i s t e hs h ht
  cases i with
  | call nnn =>
    obtain ⟨_, he⟩ | ⟨-, he⟩ := exec_call_cases nnn s <;> cases he.symm.trans h
    · simp [hs] at ht
    · cases ht
      exact ⟨rfl, .inl ⟨rfl, nnn, rfl⟩⟩
  | ret =>
    obtain ⟨v, -, -, he⟩ | ⟨-, he⟩ := exec_ret_cases s <;> cases he.symm.trans h
    · simp [hs] at ht
    · cases ht
      exact ⟨rfl, .inr (.inl ⟨rfl, rfl⟩)⟩
  | sys nnn =>
    cases h
    cases ht
    exact ⟨rfl, .inr (.inr (.inl ⟨nnn, rfl, rfl⟩))⟩
  | drw x y n =>
    -- The cleared `x[15]` is neither `pc` nor the halt record, so the rows are drawn as if from `s`.
    have hdraw : OnlyAccessErrors s (drawRows (startColumn s x) s.I (startRow s y) n.toNat (s.setReg flagReg 0#8)) :=
      drawRows_onlyAccessErrors _ _ _ _ (s.setReg flagReg 0#8)
    obtain ⟨hpc, a, rfl, hle⟩ := hdraw.of_halted hs h ht
    exact ⟨hpc, .inr (.inr (.inr ⟨a, rfl, hle, .inl ⟨x, y, n, rfl⟩⟩))⟩
  | ldBcd x =>
    obtain ⟨hpc, a, rfl, hle⟩ := (storeBytes_onlyAccessErrors s.I (bcdDigits (s.reg x)) s).of_halted hs h ht
    exact ⟨hpc, .inr (.inr (.inr ⟨a, rfl, hle, .inr (.inl ⟨x, rfl⟩)⟩))⟩
  | storeRegs x =>
    have hstore := storeBytes_onlyAccessErrors s.I (regsUpTo s x) s
    obtain ⟨hpc, a, rfl, hle⟩ := (hstore.andThen_advanceI x).of_halted hs h ht
    exact ⟨hpc, .inr (.inr (.inr ⟨a, rfl, hle, .inr (.inr (.inl ⟨x, rfl⟩))⟩))⟩
  | loadRegs x =>
    have hload := loadBytes_onlyAccessErrors x s
    obtain ⟨hpc, a, rfl, hle⟩ := (hload.andThen_advanceI x).of_halted hs h ht
    exact ⟨hpc, .inr (.inr (.inr ⟨a, rfl, hle, .inr (.inr (.inr ⟨x, rfl⟩))⟩))⟩
  | _ =>
    have hsame : t.halted = s.halted := stateWrittenOnlyByItsInstructions _ s t h .halt (by simp [partsWritten])
    simp [hsame, hs] at ht

/-! ## Refusals (O43) -/

/-- The end of a step comes to a next state, whether the handler is done or raised an error. -/
theorem finish_next (ai : Bool) (h : Handled) : ∃ t, finish ai h = .next t := by
  obtain ⟨_, -, he⟩ | ⟨_, _, -, he⟩ := finish_cases ai h <;> exact ⟨_, he⟩

/-- Everything a meaning can answer: a next state, or the refusal of a value that is no hex digit (R233). -/
theorem exec_next_or_outOfDomain (i : Instr) (s : State) :
    (∃ t, exec i s = .next t) ∨
      (exec i s = .refused .outOfDomain ∧
        ∃ x, 15 < (s.reg x).toNat ∧ (i = .skp x ∨ i = .sknp x ∨ i = .ldFont x)) := by
  cases i with
  | skp x =>
    obtain ⟨hskip, hrefused⟩ := exec_tests_key (i := .skp x) (s := s) rfl
    exact (le_or_gt (s.reg x).toNat 15).imp (fun hkey => (hskip hkey).imp fun _ ht => ht.1)
      fun hbig => ⟨hrefused hbig, x, hbig, .inl rfl⟩
  | sknp x =>
    obtain ⟨hskip, hrefused⟩ := exec_tests_key (i := .sknp x) (s := s) rfl
    exact (le_or_gt (s.reg x).toNat 15).imp (fun hkey => (hskip hkey).imp fun _ ht => ht.1)
      fun hbig => ⟨hrefused hbig, x, hbig, .inr (.inl rfl)⟩
  | ldFont x =>
    exact (le_or_gt (s.reg x).toNat 15).imp (fun hdigit => ⟨_, exec_ldFont_digit hdigit⟩)
      fun hbig => ⟨exec_ldFont_refused hbig, x, hbig, .inr (.inr rfl)⟩
  | call | ret | drw | ldBcd | storeRegs | loadRegs => exact .inl (finish_next _ _)
  | _ => exact .inl ⟨_, rfl⟩

/-- Settles O43, by everything a meaning can answer. -/
theorem refusalsAreOutOfDomain : Obligations.RefusalsAreOutOfDomain := by
  unfold Obligations.RefusalsAreOutOfDomain
  intro i s
  obtain ⟨t, he⟩ | ⟨he, hx⟩ := exec_next_or_outOfDomain i s <;> rw [he]
  · exact ⟨nofun, nofun⟩
  · exact ⟨nofun, fun r hr => by cases hr; exact ⟨rfl, hx⟩⟩

/-! ## The jump to itself (O57) -/

theorem exec_jp (nnn : Addr12) (s : State) : exec (.jp nnn) s = .next (s.setPc (addrOperand nnn)) := rfl

theorem setPc_self (s : State) : s.setPc s.pc = s := rfl

/-- Settles O57: the Cycle runs the jump, which writes to `pc` the address that it holds. -/
theorem selfJumpStaysPut : Obligations.SelfJumpStaysPut := by
  unfold Obligations.SelfJumpStaysPut
  intro s hjump
  obtain ⟨⟨-, hh⟩, nnn, hpc, hf⟩ := hjump
  calc cycle s = exec (.jp nnn) s := cycle_runs hh hf (decodeOfEncodeIsInstruction (.jp nnn) rfl)
    _ = .next (s.setPc s.pc) := by rw [exec_jp, hpc]
    _ = .next s := by rw [setPc_self]

end Sys2Proof.Machine
end
